-- ==== Sys2Proof/Word.lean ====
section
/-! DEFINITION. The widths the block moves: a byte, and the request word of R70. -/

namespace Sys2Proof

/-- The 8-bit payload of a SEND request and the byte the sequencer transmits (R22, R77). -/
abbrev Byte := BitVec 8

/-- The request word of R70 at `NUM_W = n`: `op` in the two most significant bits, `arg` in the `n` bits below. -/
abbrev ReqWord (n : Nat) := BitVec (2 + n)

end Sys2Proof
end

