-- ==== Sys2Proof/Syntax.lean ====
section
/-! DEFINITION. The requests of R72: the block's whole instruction set, one constructor per row of
spec/opcode_table.json. A constructor holds the operand R71 assembles and nothing of `arg` that R71 ignores. -/

namespace Sys2Proof

/-- One request (R72). -/
inductive Instr where
  /-- NOP, `op = 00`: no submission in this tick (R133). -/
  | nop
  /-- SEND_CMD `b`, `op = 01`: send one command byte (R134). -/
  | sendCmd (b : Byte)
  /-- SEND_DATA `b`, `op = 10`: send one data byte (R135). -/
  | sendData (b : Byte)
  /-- WRITE_NUMBER `v`, `op = 11`: send the decimal digits of `v`, a value of `NUM_W` bits (R137). -/
  | writeNumber (v : Nat)
  deriving DecidableEq, Repr

end Sys2Proof
end

