-- ==== Sys2Proof/WellFormed.lean ====
section
/-! DEFINITION. The requests a host can present at a given `NUM_W` (R71): a number's value has `NUM_W` bits. Bytes are
8 bits wide by their type. -/

namespace Sys2Proof

/-- The value of WRITE_NUMBER fits the operand field: `0 ≤ v ≤ 2^NUM_W − 1` (R71). Every other request is well formed. -/
def Instr.wf (n : Nat) : Instr → Bool
  | .nop => true
  | .sendCmd _ => true
  | .sendData _ => true
  | .writeNumber v => decide (v < 2 ^ n)

end Sys2Proof
end

