-- ==== Sys2Proof/Decode.lean ====
section
/-! DEFINITION. The request word's decoder and encoder (R70, R71, R72, R89). Every word of `NUM_W + 2` bits has a meaning
(R72), so the decoder of a word rejects nothing; only a number too large to be a request word is rejected, by name. -/

namespace Sys2Proof

/-- The `op` field, the two most significant bits (R70). -/
def opField {n : Nat} (w : ReqWord n) : BitVec 2 := w.extractLsb' n 2

/-- The `arg` field, the `NUM_W` bits below (R70). -/
def argField {n : Nat} (w : ReqWord n) : BitVec n := w.extractLsb' 0 n

/-- The byte operand of the SEND requests: `b = arg[7:0]`, the upper bits ignored (R71). -/
def byteOperand {n : Nat} (arg : BitVec n) : Byte := arg.setWidth 8

/-- The value operand of WRITE_NUMBER: all of `arg`, unsigned (R71). -/
def valueOperand {n : Nat} (arg : BitVec n) : Nat := arg.toNat

/-- The request a word stands for, selected on the two bits of `op` alone (R72, R89). -/
def decode {n : Nat} (w : ReqWord n) : Instr :=
  match (opField w).getLsbD 1, (opField w).getLsbD 0 with
  | false, false => .nop
  | false, true => .sendCmd (byteOperand (argField w))
  | true, false => .sendData (byteOperand (argField w))
  | true, true => .writeNumber (valueOperand (argField w))

/-- Why a number is no request word. -/
inductive DecodeError where
  /-- It does not fit the `NUM_W + 2` bits of R70. -/
  | wordTooWide
  deriving DecidableEq, Repr

/-- The request a number stands for at `NUM_W = n`. -/
def decodeNat (n w : Nat) : Except DecodeError Instr :=
  if w < 2 ^ (2 + n) then .ok (decode (BitVec.ofNat (2 + n) w)) else .error .wordTooWide

/-- The operation code of a request (R72). -/
def opcode : Instr → BitVec 2
  | .nop => 0b00#2
  | .sendCmd _ => 0b01#2
  | .sendData _ => 0b10#2
  | .writeNumber _ => 0b11#2

/-- The operand field of a request, its unused bits 0 (R71, R87). -/
def operandBits (n : Nat) : Instr → BitVec n
  | .nop => 0
  | .sendCmd b => b.setWidth n
  | .sendData b => b.setWidth n
  | .writeNumber v => BitVec.ofNat n v

/-- The request word of a request at `NUM_W = n`: `op` above the operand (R70, R87). -/
def encode (n : Nat) (i : Instr) : ReqWord n := opcode i ++ operandBits n i

/-- The request word, at `NUM_W = n`, of a word numbered as spec/opcode_table.json numbers it: there `NUM_W = 32`, so `op`
stands in bits 33:32 and `arg` in bits 31:0 (R89). At 32 it is the word itself (log 14). -/
def tableWord (n w : Nat) : ReqWord n := BitVec.ofNat 2 (w / 2 ^ 32) ++ BitVec.ofNat n (w % 2 ^ 32)

/-- What the decoder reads from a word of spec/opcode_table.json, its bits above `nbits` being 0. -/
def decodeTableWord (nbits w : Nat) : Option Instr :=
  match decodeNat 32 (w % 2 ^ nbits) with
  | .ok i => some i
  | .error _ => none

end Sys2Proof
end

