-- ==== Sys2Proof/Config.lean ====
section
/-! DEFINITION. What an implementation of the block fixes (R5 to R9), and the free values: constants without a body,
for the few values the spec does not state (log 4, 5, 6, 13). -/

namespace Sys2Proof

/-- `IF_WIDTH`, the display interface width: 4 or 8 (R5). -/
inductive IfWidth where
  | four
  | eight
  deriving DecidableEq, Repr

/-- The number of data lines (R33). -/
def IfWidth.bits : IfWidth → Nat
  | .four => 4
  | .eight => 8

/-- `PASS2_ENTRY`, the phase at which the second pass of a 4-bit byte starts: 0 or 3 (R7, C1). -/
inductive Pass2Entry where
  | zero
  | three
  deriving DecidableEq, Repr

/-- The phase number `PASS2_ENTRY` stands for. -/
def Pass2Entry.num : Pass2Entry → Nat
  | .zero => 0
  | .three => 3

/-- The build-time parameters the step depends on (R10). `TICK_PERIOD` is `Config.tickPeriod`: no rule reads it. -/
structure Config where
  /-- `IF_WIDTH` (R5) -/
  ifWidth : IfWidth
  /-- `NUM_W` (R6) -/
  numW : Nat
  /-- R6 lets the model take any `NUM_W ≥ 8`. -/
  numW_ge : 8 ≤ numW
  /-- `PASS2_ENTRY` (R7) -/
  pass2Entry : Pass2Entry
  deriving DecidableEq, Repr

/-- The number of decimal digits of `n`, counted with at most `fuel` divisions by 10 (0 has one digit). -/
def numDigitsFuel : Nat → Nat → Nat
  | 0, _ => 1
  | fuel + 1, n => if n < 10 then 1 else numDigitsFuel fuel (n / 10) + 1

/-- The least `w` with `n < 2 ^ w` (R9). -/
def bitLength (n : Nat) : Nat := if n = 0 then 0 else Nat.log2 n + 1

/-- `D_MAX`, the number of decimal digits of `2^NUM_W − 1` (R9). A number of `NUM_W` bits has at most `NUM_W` decimal
digits, so `NUM_W` divisions are enough. -/
def Config.dMax (c : Config) : Nat := numDigitsFuel c.numW (2 ^ c.numW - 1)

/-- `ACC_W`, the width of the reversed-digit accumulator (R9). -/
def Config.accW (c : Config) : Nat := bitLength (10 ^ c.dMax - 1)

/-- `TZ_W`, the width of the trailing-zero counter (R9). -/
def Config.tzW (c : Config) : Nat := bitLength (c.dMax - 1)

/-- `P`, the ticks a byte takes (R9). -/
def Config.byteTicks (c : Config) : Nat :=
  match c.ifWidth with
  | .eight => 6
  | .four => 12 - c.pass2Entry.num

/-- The configuration the spec's vectors call the default (95_test_vectors.md): 4 lines, 32-bit numbers, second pass from
phase 3. `IF_WIDTH` itself has no default in R5. DESIGN CHOICE (log 1): `State.reset` stands at this configuration. -/
def Config.default : Config := ⟨.four, 32, by decide, .three⟩

/-- `TICK_PERIOD` (R8), in a unit the spec leaves open (D23). Free value, log 13: no rule of the block reads it. -/
opaque Config.tickPeriod : Nat

/-- The real time of `k` ticks, `ticks × TICK_PERIOD` (R233). -/
def Config.duration (k : Nat) : Nat := k * Config.tickPeriod

/-- What a `w`-bit converter register holds after a result `n` that does not fit it. Free value, log 4: R158 says this
never happens from reset, and no rule says what is written. -/
opaque Config.overflow (w n : Nat) : BitVec w

/-- What the trailing-zero counter holds after 1 is taken from 0. Free value, log 5: R40 item 6 says this never happens
from reset, and no rule says what is written. -/
opaque Config.underflow (w : Nat) : BitVec w

/-- `sel(b, 1)` at `IF_WIDTH = 8`. Free value, log 6: R81 says it is never used. -/
opaque Config.selUnused (b : Byte) : Byte

/-- What the display latches when a reset drops the enable line, from the register-select and data lines it had. Free
value, log 12: R222 and U9 leave it open, a latch or none. -/
opaque Config.resetLatch (rs : Bool) (data : Byte) : Option (Bool × Byte)

end Sys2Proof
end

