-- ==== Sys2Proof/Machine/State.lean ====
section
/-! DEFINITION. The block's state (R20 to R33, in the types R41 suggests), its per-tick outputs (R34, R73), the input
ports' values still to come (R37, R70), the reset state (R221), and the reasons a step can stop. -/

namespace Sys2Proof.Machine

/-- The `kind` register (R21). -/
inductive Kind where
  | none
  | cmd
  | data
  | number
  deriving DecidableEq, Repr

/-- The `phase` register: the operation of the sequencer's next step, under the names of R80. The values 6 and 7 are
typed out (R86, log 8). -/
inductive Phase where
  | setRs
  | setRw
  | preStrobeLow
  | presentData
  | strobeHigh
  | strobeLow
  deriving DecidableEq, Repr

/-- The `pass` register (R25): the first pass is 0, the second 1. -/
inductive Pass where
  | first
  | second
  deriving DecidableEq, Repr

/-- The `dc_st` register (R26). The value `11` is typed out (R86, log 8). -/
inductive DcStep where
  | idle
  | rev
  | emit
  deriving DecidableEq, Repr

/-- The verdict on a tick's request word (R73). -/
inductive Status where
  | none
  | accepted
  | notReady
  | invalidArgument
  deriving DecidableEq, Repr

/-- The code of a kind (R21, R75). -/
def Kind.code : Kind → BitVec 2
  | .none => 0b00#2
  | .cmd => 0b01#2
  | .data => 0b10#2
  | .number => 0b11#2

/-- The number of a phase (R80). -/
def Phase.num : Phase → Nat
  | .setRs => 0
  | .setRw => 1
  | .preStrobeLow => 2
  | .presentData => 3
  | .strobeHigh => 4
  | .strobeLow => 5

/-- The number of a pass (R25). -/
def Pass.num : Pass → Nat
  | .first => 0
  | .second => 1

/-- The code of a converter step (R78). -/
def DcStep.code : DcStep → BitVec 2
  | .idle => 0b00#2
  | .rev => 0b01#2
  | .emit => 0b10#2

/-- The code of a verdict (R73). -/
def Status.code : Status → BitVec 2
  | .none => 0b00#2
  | .accepted => 0b01#2
  | .notReady => 0b10#2
  | .invalidArgument => 0b11#2

/-- The thirteen registers of the block (R20 to R33), at their widths. -/
structure Regs (c : Config) where
  /-- `busy` (R20) -/
  busy : Bool
  /-- `kind` (R21) -/
  kind : Kind
  /-- `byte_reg` (R22) -/
  byteReg : Byte
  /-- `phase` (R24) -/
  phase : Phase
  /-- `pass` (R25) -/
  pass : Pass
  /-- `dc_st` (R26) -/
  dcSt : DcStep
  /-- `dc_v` (R27) -/
  dcV : BitVec c.numW
  /-- `dc_rev` (R28) -/
  dcRev : BitVec c.accW
  /-- `dc_tz` (R29) -/
  dcTz : BitVec c.tzW
  /-- `lcd_rs` (R30) -/
  lcdRs : Bool
  /-- `lcd_rw` (R31) -/
  lcdRw : Bool
  /-- `lcd_e` (R32) -/
  lcdE : Bool
  /-- `lcd_db` (R33) -/
  lcdDb : BitVec c.ifWidth.bits
  deriving DecidableEq, Repr

/-- The outputs that hold for one tick only (R34). -/
structure Outputs where
  /-- `status` (R73) -/
  status : Status
  /-- `byte_done` (R107) -/
  byteDone : Bool
  /-- `done` (R139) -/
  done : Bool
  deriving DecidableEq, Repr

/-- The input ports of one tick at `NUM_W = n` (R37): `rst` and the request word `{req_op, req_arg}` (R70). -/
structure Input (n : Nat) where
  /-- `rst` (R37) -/
  rst : Bool
  /-- `{req_op, req_arg}` (R70) -/
  word : ReqWord n
  deriving DecidableEq, Repr

/-- The machine: the block's configuration and registers, the outputs of the last tick, and the input ports' values of
this tick and the ticks to come. Only `regs` is the spec's state; `cfg`, `out` and `inputs` stand here because the host's
step takes nothing but a state and gives nothing else (log 1, 2, 3). -/
structure State where
  /-- the parameters of R10; no step writes them (log 1) -/
  cfg : Config
  /-- the registers of R20 to R33 -/
  regs : Regs cfg
  /-- `status`, `byte_done` and `done` of the last tick; no step reads them (log 3) -/
  out : Outputs
  /-- the host's input of this tick, then of the next; past the end, NOP with `rst = 0` (log 2) -/
  inputs : List (Input cfg.numW)
  deriving DecidableEq, Repr

/-- The reset value of every register (R221). -/
def Regs.reset (c : Config) : Regs c where
  busy := false
  kind := .none
  byteReg := 0x00#8
  phase := .setRs
  pass := .first
  dcSt := .idle
  dcV := 0#_
  dcRev := 0#_
  dcTz := 0#_
  lcdRs := false
  lcdRw := false
  lcdE := false
  lcdDb := 0#_

/-- The outputs of a tick that does nothing, and of reset (R12, R220). -/
def Outputs.quiet : Outputs := ⟨.none, false, false⟩

/-- The machine right after reset at a given configuration, no request word presented yet (R220, R223). -/
def State.resetAt (c : Config) : State := ⟨c, Regs.reset c, Outputs.quiet, []⟩

/-- The machine right after reset (R221), at the configuration of log 1. -/
def State.reset : State := State.resetAt Config.default

/-- Why the machine stops with a fault. -/
inductive Fault where
  /-- `ModelFault(IllegalStateEncoding)` (R86, R204). Raised by nothing: the types of `Regs` cannot hold an illegal
  encoding. Safe. -/
  | illegalStateEncoding
  deriving DecidableEq, Repr

/-- Why the model gives no meaning. -/
inductive Refusal where
  /-- Only for an arm of `exec` without a meaning; every request has one, so nothing answers with it. Safe. -/
  | notModelled (mnemonic : String)
  deriving DecidableEq, Repr

end Sys2Proof.Machine
end

