-- ==== Sys2Proof/Machine/Ops.lean ====
section
/-! DEFINITION. The shared operations on the registers and on the host's input: writing a result into a register of a
given width, the slot's updates, this tick's input, and the reset. The block has no memory (R50) and no exception entry
or return (R207, R208), so there is no operation for them. -/

namespace Sys2Proof.Machine

/-- The exact result `n` written into a `w`-bit register (R12, R158): a result that does not fit is a free value (log 4). -/
def narrow (w n : Nat) : BitVec w := if n < 2 ^ w then BitVec.ofNat w n else Config.overflow w n

/-- `b − 1` for a `w`-bit counter (R156): a free value where `b = 0` (log 5). -/
def decrement {w : Nat} (b : BitVec w) : BitVec w := if b = 0#w then Config.underflow w else b - 1#w

/-- The slot written idle: `busy <- 0`, `kind <- NONE` (R139). -/
def releaseSlot {c : Config} (r : Regs c) : Regs c := { r with busy := false, kind := .none }

/-- The writes every acceptance makes: `busy <- 1`, `kind`, `phase <- 0`, `pass <- 0` (R130). -/
def occupySlot {c : Config} (k : Kind) (r : Regs c) : Regs c :=
  { r with busy := true, kind := k, phase := .setRs, pass := .first }

/-- `byte_reg <- b` (R134, R135). -/
def loadByte {c : Config} (b : Byte) (r : Regs c) : Regs c := { r with byteReg := b }

/-- The converter's registers written together (R137, R150). -/
def loadConverter {c : Config} (st : DcStep) (v : BitVec c.numW) (rev : BitVec c.accW) (tz : BitVec c.tzW)
    (r : Regs c) : Regs c :=
  { r with dcSt := st, dcV := v, dcRev := rev, dcTz := tz }

/-- The phase and pass counters written together (R106). -/
def setCounters {c : Config} (p : Phase) (q : Pass) (r : Regs c) : Regs c := { r with phase := p, pass := q }

/-- `dc_st` written (R153, R157). -/
def setDcSt {c : Config} (st : DcStep) (r : Regs c) : Regs c := { r with dcSt := st }

/-- The input ports when the host presents nothing: `op = NOP`, `rst = 0` (R186, log 2). -/
def idleInput (n : Nat) : Input n := ⟨false, 0#_⟩

/-- The input ports of this tick (R37). -/
def nextInput (s : State) : Input s.cfg.numW := s.inputs.headD (idleInput s.cfg.numW)

/-- The machine once this tick's input has been sampled. -/
def dropInput (s : State) : State := { s with inputs := s.inputs.tail }

/-- This tick's input replaced by a request word, `rst` low. -/
def placeWord (s : State) (w : ReqWord s.cfg.numW) : State := { s with inputs := ⟨false, w⟩ :: s.inputs.tail }

/-- A tick with `rst = 1`: every register at its reset value, `status = NONE`, `byte_done = 0`, `done = 0`, whatever was
running (R220). -/
def resetTick (s : State) : State := { s with regs := Regs.reset s.cfg, out := Outputs.quiet }

end Sys2Proof.Machine
end

