-- ==== Sys2Proof/Machine/Operands.lean ====
section
/-! DEFINITION. The values the block computes with: the register-select level and byte of the running request (R76, R77),
the presented digit (R155), and the nibble or byte put on the data lines (R81). -/

namespace Sys2Proof.Machine

/-- `rs_of`, the register-select level of a kind (R76): low for a command, high for data and for a number's digits. NONE
has none: the sequencer does not run while the slot is idle. -/
def rsOf : Kind → Option Bool
  | .none => none
  | .cmd => some false
  | .data => some true
  | .number => some true

/-- `dc_digit`, the digit presented in EMIT (R155). -/
def dcDigit {c : Config} (r : Regs c) : Nat := if r.dcRev = 0#_ then 0 else r.dcRev.toNat % 10

/-- The data byte of a digit: digit + 48 (R54, R77). -/
def digitByte (d : Nat) : Byte := 0x30#8 + BitVec.ofNat 8 d

/-- `tx_byte`, the byte presented while a request runs (R77). It is defined for CMD and DATA, and for NUMBER in EMIT; in
no other state is there one. -/
def txByte {c : Config} (r : Regs c) : Option Byte :=
  match r.kind with
  | .none => none
  | .cmd => some r.byteReg
  | .data => some r.byteReg
  | .number =>
    match r.dcSt with
    | .idle => none
    | .rev => none
    | .emit => some (digitByte (dcDigit r))

/-- `sel(b, q)`, the value put on the data lines for byte `b` in pass `q` (R52, R81). The second pass of an 8-bit byte is
never used: a free value (log 6). -/
def sel (w : IfWidth) (b : Byte) (q : Pass) : BitVec w.bits :=
  match w, q with
  | .eight, .first => b
  | .eight, .second => Config.selUnused b
  | .four, .first => b.extractLsb' 4 4
  | .four, .second => b.extractLsb' 0 4

/-- The phase `PASS2_ENTRY` names (R7, R80). -/
def pass2Phase : Pass2Entry → Phase
  | .zero => .setRs
  | .three => .presentData

end Sys2Proof.Machine
end

