-- ==== Sys2Proof/Machine/Flags.lean ====
section
/-! DEFINITION. The rules of the block's flag and per-tick outputs: `done` (R138, R157, R180), the free slot (R130,
R180), and `status` (R73). `byte_done` is the sequencer's `last` (R107). -/

namespace Sys2Proof.Machine

/-- `done_now` for the running request's kind, from whether its byte ends in this tick and whether the converter is then
exhausted (R138, R157, R180). -/
def doneNow (k : Kind) (last exhausted : Bool) : Bool :=
  match k with
  | .none => false
  | .cmd => last
  | .data => last
  | .number => last && exhausted

/-- `free`: the slot was idle at the start of the tick, or the running request completes in it (R130, R180). -/
def slotFree (busy done : Bool) : Bool := !busy || done

/-- `status` for a request word other than NOP (R130, R131). -/
def verdict (free : Bool) : Status := if free then .accepted else .notReady

end Sys2Proof.Machine
end

