-- ==== Sys2Proof/Machine/Converter.lean ====
section
/-! DEFINITION. The decimal digit converter (42_digit_converter.md): load, reversal step, digit consumption, exhaustion. -/

namespace Sys2Proof.Machine

/-- The converter's load by an accepted WRITE_NUMBER (R137, R150): 0 goes straight to EMIT with one zero to send. -/
def loadNumber {c : Config} (v : BitVec c.numW) (r : Regs c) : Regs c :=
  if v = 0#_ then loadConverter .emit 0#_ 0#_ (narrow c.tzW 1) r else loadConverter .rev v 0#_ 0#_ r

/-- One reversal step (R153). -/
def reversalStep {c : Config} (r : Regs c) : Regs c :=
  let d := r.dcV.toNat % 10
  let q := r.dcV.toNat / 10
  loadConverter
    (if q = 0 then .emit else r.dcSt)
    (narrow c.numW q)
    (narrow c.accW (r.dcRev.toNat * 10 + d))
    (if r.dcRev = 0#_ ∧ d = 0 then narrow c.tzW (r.dcTz.toNat + 1) else r.dcTz)
    r

/-- The converter moved on to the next digit (R156). -/
def consumeDigit {c : Config} (r : Regs c) : Regs c :=
  if r.dcRev = 0#_ then loadConverter r.dcSt r.dcV r.dcRev (decrement r.dcTz) r
  else loadConverter r.dcSt r.dcV (narrow c.accW (r.dcRev.toNat / 10)) r.dcTz r

/-- The converter has nothing left to send (R157). -/
def exhausted {c : Config} (r : Regs c) : Bool := r.dcRev == 0#_ && r.dcTz == 0#_

/-- The consuming tick's end: `dc_st <- IDLE` if the values just written are both 0 (R157). -/
def settleConverter {c : Config} (r : Regs c) : Regs c := if exhausted r then setDcSt .idle r else r

end Sys2Proof.Machine
end

