-- ==== Sys2Proof/Machine/Sequencer.lean ====
section
/-! DEFINITION. The pin sequencer and byte transmitter (40_pin_sequencer.md): enable, phase multiplexer and line drivers,
phase and pass counters. -/

namespace Sys2Proof.Machine

/-- `seq_en`: the sequencer takes a step in this tick (R100). -/
def seqEn {c : Config} (r : Regs c) : Bool :=
  r.busy && (r.kind == .cmd || r.kind == .data || (r.kind == .number && r.dcSt == .emit))

/-- The line write of the phase, for the running request's register-select level and byte (R80, R102 to R105). -/
def lineWrite {c : Config} (rs : Bool) (b : Byte) (r : Regs c) : Regs c :=
  match r.phase with
  | .setRs => { r with lcdRs := rs }
  | .setRw => { r with lcdRw := false }
  | .preStrobeLow => { r with lcdE := false }
  | .presentData => { r with lcdDb := sel c.ifWidth b r.pass }
  | .strobeHigh => { r with lcdE := true }
  | .strobeLow => { r with lcdE := false }

/-- What the counters become in a sequencer step, and whether the byte ends in it. -/
structure Advance where
  phase : Phase
  pass : Pass
  last : Bool
  deriving DecidableEq, Repr

/-- The counters' advance (R106, C1): after phase 5 a 4-bit first pass goes on at `PASS2_ENTRY`, every other pass ends
the byte. -/
def advance (c : Config) (p : Phase) (q : Pass) : Advance :=
  match p with
  | .setRs => ⟨.setRw, q, false⟩
  | .setRw => ⟨.preStrobeLow, q, false⟩
  | .preStrobeLow => ⟨.presentData, q, false⟩
  | .presentData => ⟨.strobeHigh, q, false⟩
  | .strobeHigh => ⟨.strobeLow, q, false⟩
  | .strobeLow =>
    match c.ifWidth, q with
    | .four, .first => ⟨pass2Phase c.pass2Entry, .second, false⟩
    | .four, .second => ⟨.setRs, .first, true⟩
    | .eight, _ => ⟨.setRs, .first, true⟩

/-- One sequencer step: the phase's line write and the counters' advance (R101, R102, R106). -/
def sequencerStep {c : Config} (rs : Bool) (b : Byte) (r : Regs c) : Regs c :=
  setCounters (advance c r.phase r.pass).phase (advance c r.phase r.pass).pass (lineWrite rs b r)

end Sys2Proof.Machine
end

