-- ==== Sys2Proof/Machine/Tick.lean ====
section
/-! DEFINITION. One tick (43_tick.md R181): the running request's unit of work, then this tick's request word. Every read
is of the start-of-tick registers, every write lands in the end-of-tick ones (R12, D10). -/

namespace Sys2Proof.Machine

/-- What the running request's unit of work leaves: the registers, and the two completion outputs (R107, R139). -/
structure Work (c : Config) where
  regs : Regs c
  byteDone : Bool
  done : Bool
  deriving DecidableEq, Repr

/-- The registers with the slot written idle if the request completes (R139). -/
def finishIf {c : Config} (done : Bool) (r : Regs c) : Regs c := if done then releaseSlot r else r

/-- The work of a tick in which the sequencer runs (R181 item 1): one phase, and in a number's last phase of a byte the
digit's consumption (R156, R157). -/
def sequencerWork {c : Config} (rs : Bool) (b : Byte) (r : Regs c) : Work c :=
  let n := sequencerStep rs b r
  match (advance c r.phase r.pass).last, r.kind with
  | false, _ => ⟨n, false, false⟩
  | true, .number =>
    let n' := consumeDigit n
    ⟨finishIf (doneNow .number true (exhausted n')) (settleConverter n'), true, doneNow .number true (exhausted n')⟩
  | true, k => ⟨finishIf (doneNow k true false) n, true, doneNow k true false⟩

/-- The running request's unit of work (R181 item 1). In a busy state with no defined work (kind NONE, or NUMBER with an
idle converter: no such state is reached from reset) there is none, as R100 and R152 say (log 7). -/
def unitOfWork {c : Config} (r : Regs c) : Work c :=
  if r.busy then
    if r.kind = .number ∧ r.dcSt = .rev then ⟨reversalStep r, false, false⟩
    else
      match rsOf r.kind, txByte r with
      | some rs, some b => sequencerWork rs b r
      | _, _ => ⟨r, false, false⟩
  else ⟨r, false, false⟩

/-- A tick with no request: the running request's work alone, `status = NONE` (R133). -/
def tickIdle (s : State) : State :=
  let w := unitOfWork s.regs
  { s with regs := w.regs, out := ⟨.none, w.byteDone, w.done⟩ }

/-- A tick with a request that makes the writes `accept` on acceptance (R130, R131, R181 item 2): they come after the
running request's work, and a rejected request writes nothing. -/
def tickRequest (s : State) (accept : Regs s.cfg → Regs s.cfg) : State :=
  let w := unitOfWork s.regs
  let free := slotFree s.regs.busy w.done
  { s with regs := if free then accept w.regs else w.regs, out := ⟨verdict free, w.byteDone, w.done⟩ }

end Sys2Proof.Machine
end

