-- ==== Sys2Proof/Machine/Requests.lean ====
section
/-! DEFINITION. The four requests' meanings (41_requests.md): what one tick does when the host presents each. None of
them stops: every request word has a meaning in every state (R72, R182, R200). -/

namespace Sys2Proof.Machine

/-- NOP (R133): the request word writes nothing and the running request takes its step. -/
def execNop (s : State) : Host.Outcome State Fault Refusal := .next (tickIdle s)

/-- SEND_CMD `b` (R134): accepted, the slot takes kind CMD and `byte_reg` takes `b`. -/
def execSendCmd (b : Byte) (s : State) : Host.Outcome State Fault Refusal :=
  .next (tickRequest s fun r => loadByte b (occupySlot .cmd r))

/-- SEND_DATA `b` (R135): accepted, the slot takes kind DATA and `byte_reg` takes `b`. -/
def execSendData (b : Byte) (s : State) : Host.Outcome State Fault Refusal :=
  .next (tickRequest s fun r => loadByte b (occupySlot .data r))

/-- WRITE_NUMBER `v` (R137): accepted, the slot takes kind NUMBER and the converter is loaded; `byte_reg` is kept. The
operand is the `NUM_W` bits the request port carries (R71, log 9). -/
def execWriteNumber (v : Nat) (s : State) : Host.Outcome State Fault Refusal :=
  .next (tickRequest s fun r => loadNumber (BitVec.ofNat s.cfg.numW v) (occupySlot .number r))

end Sys2Proof.Machine
end

