-- ==== Sys2Proof/Machine/Dispatch.lean ====
section
/-! DEFINITION. `exec`: one arm per request, each one direct call of its meaning. -/

namespace Sys2Proof.Machine

/-- What one tick does when the host presents the request `i` (R181 with `rst = 0`). -/
def exec (i : Instr) (s : State) : Host.Outcome State Fault Refusal :=
  match i with
  | .nop => Sys2Proof.Machine.execNop s
  | .sendCmd b => Sys2Proof.Machine.execSendCmd b s
  | .sendData b => Sys2Proof.Machine.execSendData b s
  | .writeNumber v => Sys2Proof.Machine.execWriteNumber v s

end Sys2Proof.Machine
end

