-- ==== Sys2Proof/Machine/Step.lean ====
section
/-! DEFINITION. One tick of the block (R181): sample the input ports, reset if `rst = 1`, else run the request word. -/

namespace Sys2Proof.Machine

/-- One tick (R181, R206): `rst` first, then the request word presented in this tick. -/
def step (s : State) : Host.Outcome State Fault Refusal :=
  if (nextInput s).rst then .next (resetTick (dropInput s))
  else exec (decode (nextInput s).word) (dropInput s)

/-- `s` with a word of spec/opcode_table.json presented in its next tick, `rst` low (log 2, 14). -/
def State.withFetchWord (s : State) (nbits w : Nat) : State :=
  placeWord s (tableWord s.cfg.numW (w % 2 ^ nbits))

end Sys2Proof.Machine
end

