-- ==== Sys2Proof/Machine/Ports.lean ====
section
/-! DEFINITION. What the outside sees of the block: its output ports (R38), the display pins behind the data lines (R53),
and the latches and bytes the display receives (R57, R184). -/

namespace Sys2Proof.Machine

/-- The output ports of one tick (R38). -/
structure Ports (c : Config) where
  lcdRs : Bool
  lcdRw : Bool
  lcdE : Bool
  lcdDb : BitVec c.ifWidth.bits
  busy : Bool
  status : BitVec 2
  byteDone : Bool
  done : Bool
  deriving DecidableEq, Repr

/-- The ports at the end of the tick that left `s` (R38, D10): lines and `busy` from the registers, the rest from the
tick. -/
def ports (s : State) : Ports s.cfg where
  lcdRs := s.regs.lcdRs
  lcdRw := s.regs.lcdRw
  lcdE := s.regs.lcdE
  lcdDb := s.regs.lcdDb
  busy := s.regs.busy
  status := s.out.status.code
  byteDone := s.out.byteDone
  done := s.out.done

/-- The level of display pin `DBi`, `none` where the block has no port for it (R53). -/
def dbPin (w : IfWidth) (db : BitVec w.bits) (i : Fin 8) : Option Bool :=
  match w with
  | .eight => some (db.getLsbD i)
  | .four => if 4 ≤ i.val then some (db.getLsbD (i.val - 4)) else none

/-- What the display takes at one strobe: the register-select level and the data lines, the absent ones 0. -/
structure Latch where
  rs : Bool
  data : Byte
  deriving DecidableEq, Repr

/-- What the display latches in the tick from `s` to `t`: the high-to-low transition of the enable line takes the other
lines as they stand at the end of the tick (R57, R184). If a reset makes the transition, what is latched is a free value
(R222, log 12). -/
def latchOf (s t : State) : Option Latch :=
  if s.regs.lcdE && !t.regs.lcdE then
    if (nextInput s).rst then (Config.resetLatch s.regs.lcdRs (s.regs.lcdDb.setWidth 8)).map fun x => ⟨x.1, x.2⟩
    else some ⟨t.regs.lcdRs, t.regs.lcdDb.setWidth 8⟩
  else none

/-- The bytes a sequence of latches makes: one latch each with 8 lines, a pair of latches, high nibble first, with 4
(R184). DESIGN CHOICE (log 17), for latches that are not a run of whole bytes (a reset between a byte's two passes leaves
one over; R222 and U9 leave the display open): pairs are taken from the first latch of the list on, across a reset too;
a pair's register-select level is its first latch's; an odd latch left over makes no byte. -/
def receivedBytes (w : IfWidth) : List Latch → List Latch
  | [] => []
  | [l] =>
    match w with
    | .eight => [l]
    | .four => []
  | l :: m :: ls =>
    match w with
    | .eight => l :: receivedBytes w (m :: ls)
    | .four => ⟨l.rs, l.data.extractLsb' 0 4 ++ m.data.extractLsb' 0 4⟩ :: receivedBytes w ls

/-- The ports tick by tick over `k` ticks (R184, R186). -/
def trace : Nat → State → List (Sigma Ports)
  | 0, _ => []
  | k + 1, s =>
    match step s with
    | .next t => ⟨t.cfg, ports t⟩ :: trace k t
    | .fault _ => []
    | .refused _ => []

/-- The display's latches over `k` ticks (R184). -/
def latches : Nat → State → List Latch
  | 0, _ => []
  | k + 1, s =>
    match step s with
    | .next t => (latchOf s t).toList ++ latches k t
    | .fault _ => []
    | .refused _ => []

/-- The bytes whose last phase runs within `k` ticks: `tx_byte` in every tick with `byte_done = 1` (R77, R107). -/
def sentBytes : Nat → State → List Byte
  | 0, _ => []
  | k + 1, s =>
    match step s with
    | .next t => (if t.out.byteDone then (txByte s.regs).toList else []) ++ sentBytes k t
    | .fault _ => []
    | .refused _ => []

end Sys2Proof.Machine
end

