-- ==== Sys2Proof/Machine/Programs.lean ====
section
/-! DEFINITION. Programs of the block: the line syntax and pseudo-instructions (R87, R88), their request words, and the
run of a program (R186). -/

namespace Sys2Proof.Machine

/-- The ticks WRITE_NUMBER `v` takes after its accepting tick (R160): `P` for 0, else `n + n·P` for `n` decimal digits. -/
def numberTicks (c : Config) (v : Nat) : Nat :=
  if v = 0 then c.byteTicks else numDigitsFuel c.numW v * (1 + c.byteTicks)

/-- One line of a program: a request (R87) or a pseudo-instruction (R88). -/
inductive Line where
  | one (i : Instr)
  | wait (k : Nat)
  | sendCmdW (b : Byte)
  | sendDataW (b : Byte)
  | sendString (cs : List Byte)
  | writeNumberW (v : Nat)
  deriving DecidableEq, Repr

/-- The plain requests a line expands to (R88), at a configuration's tick counts. -/
def Line.expand (c : Config) : Line → List Instr
  | .one i => [i]
  | .wait k => List.replicate k .nop
  | .sendCmdW b => .sendCmd b :: List.replicate (c.byteTicks - 1) .nop
  | .sendDataW b => .sendData b :: List.replicate (c.byteTicks - 1) .nop
  | .sendString cs => cs.flatMap fun b => .sendData b :: List.replicate (c.byteTicks - 1) .nop
  | .writeNumberW v => .writeNumber v :: List.replicate (numberTicks c v - 1) .nop

/-- The bytes and delays that are the host's and stand in no source (R142, R227, N3, N9; log 16). -/
structure HostData where
  functionSet : Byte
  displayControl : Byte
  clearDisplay : Byte
  entryMode : Byte
  setAddress : Byte
  firstLine : Byte
  secondLine : Byte
  /-- NOP ticks before the first command -/
  powerOnDelay : Nat
  /-- NOP ticks after each command of the initialization -/
  stageGap : Nat
  deriving DecidableEq, Repr

/-- The source's request kinds (R142). The rows of SetCursor are 0 and 1. -/
inductive SourceRequest where
  | writeCommand (b : Byte)
  | clear
  | setCursor (row : Fin 2) (column : Byte)
  | writeString (cs : List Byte)
  | writeNumber (v : Nat)
  | init
  deriving DecidableEq, Repr

/-- The lines a source request reduces to at the block, each request in the completing tick of the one before or later
(R142, R227). DESIGN CHOICE (log 16): a cursor address `line base + column` that passes 8 bits loses its carry; the spec
gives neither the bases nor the sum's width. -/
def SourceRequest.lines (h : HostData) : SourceRequest → List Line
  | .writeCommand b => [.sendCmdW b]
  | .clear => [.sendCmdW h.clearDisplay]
  | .setCursor row column => [.sendCmdW (h.setAddress ||| ((if row = 0 then h.firstLine else h.secondLine) + column))]
  | .writeString cs => [.sendString cs]
  | .writeNumber v => [.writeNumberW v]
  | .init =>
    [.wait h.powerOnDelay, .sendCmdW h.functionSet, .wait h.stageGap, .sendCmdW h.displayControl, .wait h.stageGap,
      .sendCmdW h.clearDisplay, .wait h.stageGap, .sendCmdW h.entryMode, .wait h.stageGap]

/-- The host about to present the requests `is`, one a tick (R87, R186). -/
def loadProgram (s : State) (is : List Instr) : State :=
  { s with inputs := is.map fun i => ⟨false, encode s.cfg.numW i⟩ }

/-- The ticks within which NOPs bring every reachable state to rest (R185). -/
def settleBound (c : Config) : Nat := max c.byteTicks (c.dMax * (1 + c.byteTicks))

/-- Ticks until the block is quiescent, at most `k` (R186). -/
def settle : Nat → State → Host.Outcome State Fault Refusal
  | 0, s => .next s
  | k + 1, s =>
    if s.regs.busy then
      match step s with
      | .next t => settle k t
      | .fault f => .fault f
      | .refused r => .refused r
    else .next s

/-- The run of a program (R186): one tick a request, then NOPs until the block is quiescent. -/
def runProgram (s : State) (is : List Instr) : Host.Outcome State Fault Refusal :=
  match Host.Core.run Sys2Proof.core is.length (loadProgram s is) with
  | .next t => settle (settleBound s.cfg) t
  | .fault f => .fault f
  | .refused r => .refused r

/-- How many ticks `settle` applies: those until the block is quiescent, at most `k` (R186). -/
def settleTicks : Nat → State → Nat
  | 0, _ => 0
  | k + 1, s =>
    if s.regs.busy then
      match step s with
      | .next t => settleTicks k t + 1
      | .fault _ => 0
      | .refused _ => 0
    else 0

/-- How many ticks the run of a program applies: one a request, then the NOPs until the block is quiescent (R186). -/
def runTicks (s : State) (is : List Instr) : Nat :=
  is.length +
    match Host.Core.run Sys2Proof.core is.length (loadProgram s is) with
    | .next t => settleTicks (settleBound s.cfg) t
    | .fault _ => 0
    | .refused _ => 0

/-- The trace of a program's run: the port sequence of every tick applied (R186). -/
def programTrace (s : State) (is : List Instr) : List (Sigma Ports) := trace (runTicks s is) (loadProgram s is)

end Sys2Proof.Machine
end

