-- ==== Sys2Proof/Machine/Assembler.lean ====
section
/-! DEFINITION. The text of a program line (R87, R88), read from its characters. It is notation only (D31); what R87
leaves open is settled in log 15. -/

namespace Sys2Proof.Machine

/-- The line with the blanks at its start taken off. -/
def skipBlanks (cs : List Char) : List Char := cs.dropWhile (· == ' ')

/-- Nothing is left on the line but blanks and a comment after `;` (R87). -/
def atEnd (cs : List Char) : Bool :=
  match skipBlanks cs with
  | [] => true
  | c :: _ => c == ';'

/-- The value of a digit character in a base of at most 16. -/
def digitOf (base : Nat) (c : Char) : Option Nat :=
  let d :=
    if '0' ≤ c ∧ c ≤ '9' then c.toNat - 48
    else if 'a' ≤ c ∧ c ≤ 'f' then c.toNat - 87
    else if 'A' ≤ c ∧ c ≤ 'F' then c.toNat - 55
    else base
  if d < base then some d else none

/-- The digits at the start of the line taken into the number read so far, and the rest of the line. -/
def digitsFrom (base : Nat) : Nat → List Char → Nat × List Char
  | acc, [] => (acc, [])
  | acc, c :: cs =>
    match digitOf base c with
    | some d => digitsFrom base (acc * base + d) cs
    | none => (acc, c :: cs)

/-- A number at the start of the line, and the rest: `0xNN`, decimal, or `'c'` where a byte is wanted (R87). DESIGN CHOICE
(log 15): the spec says how a byte is written and not how a value or a tick count is; these are decimal or `0x` with any
number of digits, and not `'c'`. A `;` between single quotes is that character and starts no comment. -/
def numberAt (quoted : Bool) (cs : List Char) : Option (Nat × List Char) :=
  match cs with
  | '0' :: 'x' :: d :: ds => (digitOf 16 d).map fun _ => digitsFrom 16 0 (d :: ds)
  | '\'' :: c :: '\'' :: rest => if quoted then some (c.toNat, rest) else none
  | d :: ds => (digitOf 10 d).map fun _ => digitsFrom 10 0 (d :: ds)
  | [] => none

/-- The whole rest of the line as one number below `bound`. -/
def operandBelow (bound : Nat) (quoted : Bool) (cs : List Char) : Option Nat :=
  match numberAt quoted (skipBlanks cs) with
  | some (k, rest) => if k < bound ∧ atEnd rest then some k else none
  | none => none

/-- The characters up to the closing double quote, as bytes, the rest of the line holding nothing more. DESIGN CHOICE
(log 15): a `;` between the quotes is a character and starts no comment. -/
def stringBody : List Char → Option (List Byte)
  | [] => none
  | c :: cs =>
    if c == '"' then (if atEnd cs then some [] else none)
    else if c.toNat < 256 then (stringBody cs).map (BitVec.ofNat 8 c.toNat :: ·) else none

/-- The operand of SEND_STRING: a text in double quotes (R88). -/
def stringOperand (cs : List Char) : Option (List Byte) :=
  match skipBlanks cs with
  | '"' :: rest => stringBody rest
  | _ => none

/-- One program line read at a given `NUM_W` (R87, R88). -/
def assembleLine (n : Nat) (line : List Char) : Option Line :=
  let cs := skipBlanks line
  let name := cs.takeWhile fun c => c != ' ' && c != ';'
  let rest := cs.drop name.length
  let byte := (operandBelow 256 true rest).map fun k => BitVec.ofNat 8 k
  let value := operandBelow (2 ^ n) false rest
  if name = ['N', 'O', 'P'] then (if atEnd rest then some (.one .nop) else none)
  else if name = ['S', 'E', 'N', 'D', '_', 'C', 'M', 'D'] then byte.map fun b => .one (.sendCmd b)
  else if name = ['S', 'E', 'N', 'D', '_', 'D', 'A', 'T', 'A'] then byte.map fun b => .one (.sendData b)
  else if name = ['W', 'R', 'I', 'T', 'E', '_', 'N', 'U', 'M', 'B', 'E', 'R'] then
    value.map fun v => .one (.writeNumber v)
  else if name = ['W', 'A', 'I', 'T'] then
    match numberAt false (skipBlanks rest) with
    | some (k, more) => if atEnd more then some (.wait k) else none
    | none => none
  else if name = ['S', 'E', 'N', 'D', '_', 'C', 'M', 'D', '_', 'W'] then byte.map .sendCmdW
  else if name = ['S', 'E', 'N', 'D', '_', 'D', 'A', 'T', 'A', '_', 'W'] then byte.map .sendDataW
  else if name = ['S', 'E', 'N', 'D', '_', 'S', 'T', 'R', 'I', 'N', 'G'] then (stringOperand rest).map .sendString
  else if name = ['W', 'R', 'I', 'T', 'E', '_', 'N', 'U', 'M', 'B', 'E', 'R', '_', 'W'] then value.map .writeNumberW
  else none

end Sys2Proof.Machine
end

