-- ==== Sys2Proof/Safety.lean ====
section
/-! DEFINITION. The terms the claims use: the invariants of R40 and the stronger one every tick keeps, quiescence (R185),
the digits still to be sent (R154, R159), and the ticks a running request still takes (R109, R160). -/

namespace Sys2Proof.Machine

/-- The invariants of R40, item by item. Item 9 holds by the types. -/
structure RegInvariants {c : Config} (r : Regs c) : Prop where
  busy_iff : r.busy = false ↔ r.kind = .none
  idle_counters : r.busy = false → r.phase = .setRs ∧ r.pass = .first ∧ r.dcSt = .idle
  idle_converter : r.dcSt = .idle → r.dcV = 0#_ ∧ r.dcRev = 0#_ ∧ r.dcTz = 0#_
  converter_of_number : r.kind ≠ .number → r.dcSt = .idle
  rev : r.dcSt = .rev → r.dcV ≠ 0#_ ∧ r.phase = .setRs ∧ r.pass = .first
  emit : r.dcSt = .emit → r.dcV = 0#_ ∧ (r.dcRev ≠ 0#_ ∨ r.dcTz ≠ 0#_)
  eight_lines : c.ifWidth = .eight → r.pass = .first
  second_pass : r.pass = .second → c.pass2Entry.num ≤ r.phase.num
  legal_codes : r.phase.num ≤ 5 ∧ r.dcSt.code ≠ 0b11#2
  write_line : r.lcdRw = false
  bounds : r.dcRev.toNat < 10 ^ c.dMax ∧ r.dcTz.toNat ≤ c.dMax - 1
  number : r.kind = .number → r.dcSt = .rev ∨ r.dcSt = .emit

/-- No request is running (R185). -/
def Quiescent (s : State) : Prop := s.regs.busy = false

/-- The decimal numeral of `v`, most significant digit first, 0 being one digit (R159). -/
def numeral (v : Nat) : List Nat := if v = 0 then [0] else (Nat.digits 10 v).reverse

/-- The digits the running number has still to send, in the order they leave (R154, R155). -/
def digitsLeft {c : Config} (r : Regs c) : List Nat :=
  match r.dcSt with
  | .idle => []
  | .rev => (Nat.digits 10 r.dcV.toNat).reverse ++ Nat.digits 10 r.dcRev.toNat ++ List.replicate r.dcTz.toNat 0
  | .emit => Nat.digits 10 r.dcRev.toNat ++ List.replicate r.dcTz.toNat 0

/-- What every tick keeps: R40 with two facts its items 10 and 11 rest on. At most `D_MAX` digits are still to be sent,
which bounds the accumulator and the zero counter during the reversal (R158), and the enable line is high exactly between
phases 4 and 5 (R105). -/
structure StepInvariant {c : Config} (r : Regs c) : Prop extends RegInvariants r where
  digits : (digitsLeft r).length ≤ c.dMax
  strobe : r.lcdE = true ↔ r.phase = .strobeLow

/-- The ticks the byte in progress still takes, this one included (R82, R109). -/
def byteTicksLeft {c : Config} (r : Regs c) : Nat :=
  match c.ifWidth, r.pass with
  | .eight, _ => 6 - r.phase.num
  | .four, .second => 6 - r.phase.num
  | .four, .first => (6 - r.phase.num) + (6 - c.pass2Entry.num)

/-- The ticks the running request still takes, its completing tick included; 0 while idle (R109, R141, R160). -/
def ticksLeft {c : Config} (r : Regs c) : Nat :=
  match r.kind with
  | .none => 0
  | .cmd => byteTicksLeft r
  | .data => byteTicksLeft r
  | .number =>
    match r.dcSt with
    | .idle => 0
    | .rev => (Nat.digits 10 r.dcV.toNat).length + (digitsLeft r).length * c.byteTicks
    | .emit => byteTicksLeft r + ((digitsLeft r).length - 1) * c.byteTicks

/-- None of the host's next `k` inputs is a reset. -/
def NoReset (k : Nat) (s : State) : Prop := ∀ x ∈ s.inputs.take k, x.rst = false

/-- The host presents nothing but NOPs from here on, with `rst = 0` (R185). -/
def OnlyNops (s : State) : Prop := ∀ x ∈ s.inputs, x.rst = false ∧ decode x.word = .nop

end Sys2Proof.Machine
end

