-- ==== Sys2Proof/Certificates/Slice0/Obligations.lean ====
section
/-! DEFINITION. The statements about the block, each a `Prop`; OBLIGATIONS.json lists them. They speak of `exec` (what one
tick does with a request), `step` (one tick) and runs of `step`. "The NOP tick" of a state is `exec .nop` at it: the running
request's own unit of work, with no request presented. -/

open Sys2Proof Sys2Proof.Machine

/-! ### Reset -/

/-- R221: the reset value of every register, at every configuration, and the invariants of R40. The model's own: the three
outputs before the first tick (log 3, DEDUCED from R220), and the configuration at which `State.reset` stands (log 1,
DESIGN CHOICE). -/
def Obligations.ResetLeavesEveryRegister : Prop :=
  ∀ c : Config,
    (State.resetAt c).regs =
      { busy := false, kind := .none, byteReg := 0x00#8, phase := .setRs, pass := .first, dcSt := .idle,
        dcV := 0#_, dcRev := 0#_, dcTz := 0#_, lcdRs := false, lcdRw := false, lcdE := false, lcdDb := 0#_ } ∧
    (State.resetAt c).out = ⟨.none, false, false⟩ ∧
    RegInvariants (State.resetAt c).regs ∧
    State.reset = State.resetAt Config.default

/-- The invariant every tick keeps holds at reset. -/
def Obligations.StepInvariantAtReset : Prop :=
  (∀ c : Config, StepInvariant (State.resetAt c).regs) ∧ StepInvariant State.reset.regs

/-- R220, R206 item 1: a tick with `rst = 1` writes the reset value of every register and drives NONE, 0, 0, whatever the
request word and whatever was running. -/
def Obligations.ResetTickClearsEverything : Prop :=
  ∀ s : State, (nextInput s).rst = true →
    step s = .next ⟨s.cfg,
      { busy := false, kind := .none, byteReg := 0x00#8, phase := .setRs, pass := .first, dcSt := .idle,
        dcV := 0#_, dcRev := 0#_, dcTz := 0#_, lcdRs := false, lcdRw := false, lcdE := false, lcdDb := 0#_ },
      ⟨.none, false, false⟩, s.inputs.tail⟩

/-! ### Encoding -/

/-- Decoding an encoded well-formed request gives it back, at every `NUM_W ≥ 8` (R6, R70, R71, R72, R87). -/
def Obligations.DecodeOfEncodeIsIdentity : Prop :=
  ∀ (n : Nat) (i : Instr), 8 ≤ n → i.wf n = true → decode (encode n i) = i

/-- Encoding what a word decodes to gives the word back, with the bits R71 ignores written 0 (R71, R87). -/
def Obligations.EncodeOfDecodeClearsIgnoredBits : Prop :=
  ∀ (n : Nat) (w : ReqWord n), 8 ≤ n →
    opField (encode n (decode w)) = opField w ∧
    argField (encode n (decode w)) =
      match decode w with
      | .nop => 0#n
      | .sendCmd _ => BitVec.ofNat n ((argField w).toNat % 256)
      | .sendData _ => BitVec.ofNat n ((argField w).toNat % 256)
      | .writeNumber _ => argField w

/-- R72, R71: the operation code alone selects the request, every value is defined, and the operand is the byte
`arg[7:0]` or the whole of `arg`. -/
def Obligations.OperationCodeSelectsTheRequest : Prop :=
  ∀ (n : Nat) (w : ReqWord n), 8 ≤ n →
    (opField w = 0b00#2 → decode w = .nop) ∧
    (opField w = 0b01#2 → decode w = .sendCmd (BitVec.ofNat 8 (argField w).toNat)) ∧
    (opField w = 0b10#2 → decode w = .sendData (BitVec.ofNat 8 (argField w).toNat)) ∧
    (opField w = 0b11#2 → decode w = .writeNumber (argField w).toNat) ∧
    (decode w).wf n = true

/-- R89: the words of the opcode table at `NUM_W = 32`, and the decoder's selection on bits 33:32 alone. -/
def Obligations.TableRowsSelectTheirRequests : Prop :=
  (∀ w : Nat, w < 2 ^ 34 →
    (w &&& 0x300000000 = 0x000000000 → decodeTableWord 40 w = some .nop) ∧
    (w &&& 0x300000000 = 0x100000000 → decodeTableWord 40 w = some (.sendCmd (BitVec.ofNat 8 w))) ∧
    (w &&& 0x300000000 = 0x200000000 → decodeTableWord 40 w = some (.sendData (BitVec.ofNat 8 w))) ∧
    (w &&& 0x300000000 = 0x300000000 → decodeTableWord 40 w = some (.writeNumber (w % 2 ^ 32)))) ∧
  (encode 32 .nop).toNat = 0x000000000 ∧
  (∀ b : Byte, (encode 32 (.sendCmd b)).toNat = 0x100000000 ||| b.toNat) ∧
  (∀ b : Byte, (encode 32 (.sendData b)).toNat = 0x200000000 ||| b.toNat) ∧
  (∀ v : Nat, v < 2 ^ 32 → (encode 32 (.writeNumber v)).toNat = 0x300000000 ||| v)

/-- Words written out in the spec decode to their requests (R87, 95_test_vectors.md V2, V10, V15, V16, V37). -/
def Obligations.WordsOfTheSpecDecode : Prop :=
  decodeTableWord 40 0x0FFFFFFFF = some .nop ∧
  decodeTableWord 40 0x100000028 = some (.sendCmd 0x28#8) ∧
  decodeTableWord 40 0x1FFFFFF28 = some (.sendCmd 0x28#8) ∧
  decodeTableWord 40 0x200000041 = some (.sendData 0x41#8) ∧
  decodeTableWord 40 0x3FFFFFFFF = some (.writeNumber 4294967295)

/-! ### The tick -/

/-- A tick with `rst = 0` runs the request its word decodes to, on the state with that input taken off; past the host's
last word it runs a NOP (R181, R186). -/
def Obligations.StepRunsThePresentedRequest : Prop :=
  (∀ (s : State) (w : ReqWord s.cfg.numW) (rest : List (Input s.cfg.numW)), s.inputs = ⟨false, w⟩ :: rest →
    (decode w).wf s.cfg.numW = true ∧ step s = exec (decode w) { s with inputs := rest }) ∧
  (∀ s : State, s.inputs = [] → step s = exec .nop s)

/-- R182: the step is a total function: every tick, from every state and with every input, ends in a next state; it keeps
the configuration and takes one input. -/
def Obligations.EveryTickEndsInANextState : Prop :=
  (∀ (i : Instr) (s : State), ∃ r o, exec i s = .next ⟨s.cfg, r, o, s.inputs⟩) ∧
  (∀ s : State, ∃ r o, step s = .next ⟨s.cfg, r, o, s.inputs.tail⟩)

/-- Every tick, reset ticks included, keeps the invariant, from every state that has it. -/
def Obligations.StepKeepsStepInvariant : Prop :=
  ∀ s t : State, StepInvariant s.regs → step s = .next t → StepInvariant t.regs

/-- R40: the twelve invariants hold in every state reached from reset, at every configuration, whatever the host presents
in each tick. -/
def Obligations.ReachableStatesSatisfyTheInvariants : Prop :=
  ∀ (c : Config) (ins : List (Input c.numW)) (k : Nat) (t : State),
    Host.Core.run Sys2Proof.core k { State.resetAt c with inputs := ins } = .next t → RegInvariants t.regs

/-- R180: whether the running request's byte or the request itself completes in a tick depends on the state alone, never
on the request word of the tick. -/
def Obligations.CompletionIgnoresTheRequest : Prop :=
  ∀ (i j : Instr) (s : State) r o r' o', exec i s = .next ⟨s.cfg, r, o, s.inputs⟩ →
    exec j s = .next ⟨s.cfg, r', o', s.inputs⟩ →
    o.byteDone = o'.byteDone ∧ o.done = o'.done ∧
    r.lcdRs = r'.lcdRs ∧ r.lcdRw = r'.lcdRw ∧ r.lcdE = r'.lcdE ∧ r.lcdDb = r'.lcdDb

/-! ### Requests -/

/-- R133: NOP drives NONE and writes nothing, in every state: idle, no register changes; busy, only the running request's
own work is done, and if that completes the request the slot is left idle. The word's `arg` is ignored. -/
def Obligations.NopWritesNothing : Prop :=
  (∀ s : State, s.regs.busy = false → exec .nop s = .next { s with out := ⟨.none, false, false⟩ }) ∧
  (∀ s : State, s.regs.busy = true → exec .nop s =
    .next ⟨s.cfg, (unitOfWork s.regs).regs, ⟨.none, (unitOfWork s.regs).byteDone, (unitOfWork s.regs).done⟩, s.inputs⟩) ∧
  (∀ (s : State) r o, exec .nop s = .next ⟨s.cfg, r, o, s.inputs⟩ → o.done = true → r.busy = false) ∧
  (∀ (n : Nat) (arg : BitVec n), decode (n := n) (0b00#2 ++ arg) = .nop)

/-- R134, R130: SEND_CMD presented to an idle block is accepted in that tick: kind CMD, the byte latched, the counters at
their start; nothing else changes. -/
def Obligations.IdleBlockAcceptsSendCmd : Prop :=
  ∀ (b : Byte) (s : State), s.regs.busy = false →
    exec (.sendCmd b) s = .next { s with
      regs := { s.regs with busy := true, kind := .cmd, byteReg := b, phase := .setRs, pass := .first }
      out := ⟨.accepted, false, false⟩ }

/-- R135, R130: SEND_DATA presented to an idle block is accepted in that tick: kind DATA, the byte latched, the counters at
their start; nothing else changes. -/
def Obligations.IdleBlockAcceptsSendData : Prop :=
  ∀ (b : Byte) (s : State), s.regs.busy = false →
    exec (.sendData b) s = .next { s with
      regs := { s.regs with busy := true, kind := .data, byteReg := b, phase := .setRs, pass := .first }
      out := ⟨.accepted, false, false⟩ }

/-- R137, R150: WRITE_NUMBER presented to an idle block is accepted in that tick: kind NUMBER, every converter register
overwritten (0 goes straight to EMIT with one zero to send), `byte_reg` unchanged; nothing else changes. -/
def Obligations.IdleBlockAcceptsWriteNumber : Prop :=
  ∀ (v : Nat) (s : State), v < 2 ^ s.cfg.numW → s.regs.busy = false →
    exec (.writeNumber v) s = .next { s with
      regs := { s.regs with
        busy := true, kind := .number, phase := .setRs, pass := .first
        dcSt := if v = 0 then .emit else .rev
        dcV := BitVec.ofNat s.cfg.numW v
        dcRev := 0#_
        dcTz := if v = 0 then 1#_ else 0#_ }
      out := ⟨.accepted, false, false⟩ }

/-- R130: a request other than NOP is accepted exactly when the slot is free: idle at the start of the tick, or completing
in it. Acceptance writes `busy`, `kind` (the request's operation code), the counters, and the request's own registers, over
what the NOP tick leaves, and it does no work of the accepted request. -/
def Obligations.AcceptedExactlyWhenFree : Prop :=
  ∀ (i : Instr) (s : State) n o, i ≠ .nop → i.wf s.cfg.numW = true → exec .nop s = .next ⟨s.cfg, n, o, s.inputs⟩ →
    ∃ r o', exec i s = .next ⟨s.cfg, r, o', s.inputs⟩ ∧
      (o'.status = .accepted ↔ s.regs.busy = false ∨ o.done = true) ∧
      (o'.status = .accepted →
        r = (match i with
          | .nop => n
          | .sendCmd b => { n with busy := true, kind := .cmd, phase := .setRs, pass := .first, byteReg := b }
          | .sendData b => { n with busy := true, kind := .data, phase := .setRs, pass := .first, byteReg := b }
          | .writeNumber v => { n with
              busy := true, kind := .number, phase := .setRs, pass := .first
              dcSt := if v = 0 then .emit else .rev
              dcV := BitVec.ofNat s.cfg.numW v
              dcRev := 0#_
              dcTz := if v = 0 then 1#_ else 0#_ }) ∧
        r.kind.code = opcode i)

/-- R131: a request presented while the slot is not free drives NOT_READY and writes no register; the running request
takes the same step as under NOP. -/
def Obligations.RejectedRequestWritesNothing : Prop :=
  ∀ (i : Instr) (s : State) n o, i ≠ .nop → exec .nop s = .next ⟨s.cfg, n, o, s.inputs⟩ →
    s.regs.busy = true → o.done = false →
    exec i s = .next ⟨s.cfg, n, ⟨.notReady, o.byteDone, false⟩, s.inputs⟩

/-- R73: the status code of each tick: 00 for NOP and only for it, 01 exactly for an accepted request, 10 exactly for one
presented while the slot is not free, 11 never (R201, R202). -/
def Obligations.StatusCodeOfEveryRequest : Prop :=
  ∀ (i : Instr) (s : State) r o, exec i s = .next ⟨s.cfg, r, o, s.inputs⟩ →
    (o.status.code = 0b00#2 ↔ i = .nop) ∧
    (o.status.code = 0b01#2 ↔ i ≠ .nop ∧ (s.regs.busy = false ∨ o.done = true)) ∧
    (o.status.code = 0b10#2 ↔ i ≠ .nop ∧ s.regs.busy = true ∧ o.done = false) ∧
    o.status.code ≠ 0b11#2

/-- The frame of a tick, for every request: which registers may change, and by what. `byte_reg` only by an accepted SEND;
each line only in its phase; the converter only in a reversal tick, in a digit's last tick, or by an accepted
WRITE_NUMBER; `busy` and `kind` only by completion or acceptance; the counters only by a sequencer step or acceptance. -/
def Obligations.FrameOfATick : Prop :=
  ∀ (i : Instr) (s : State), ∃ r o, exec i s = .next ⟨s.cfg, r, o, s.inputs⟩ ∧
    (¬(o.status = .accepted ∧ ∃ b, i = .sendCmd b ∨ i = .sendData b) → r.byteReg = s.regs.byteReg) ∧
    (¬(seqEn s.regs = true ∧ s.regs.phase = .setRs) → r.lcdRs = s.regs.lcdRs) ∧
    (¬(seqEn s.regs = true ∧ s.regs.phase = .setRw) → r.lcdRw = s.regs.lcdRw) ∧
    (¬(seqEn s.regs = true ∧ (s.regs.phase = .preStrobeLow ∨ s.regs.phase = .strobeHigh ∨ s.regs.phase = .strobeLow)) →
      r.lcdE = s.regs.lcdE) ∧
    (¬(seqEn s.regs = true ∧ s.regs.phase = .presentData) → r.lcdDb = s.regs.lcdDb) ∧
    (¬(s.regs.busy = true ∧ s.regs.kind = .number ∧ (s.regs.dcSt = .rev ∨ s.regs.dcSt = .emit ∧ o.byteDone = true)) →
      ¬(o.status = .accepted ∧ ∃ v, i = .writeNumber v) →
      r.dcSt = s.regs.dcSt ∧ r.dcV = s.regs.dcV ∧ r.dcRev = s.regs.dcRev ∧ r.dcTz = s.regs.dcTz) ∧
    (o.done = false → o.status ≠ .accepted → r.busy = s.regs.busy ∧ r.kind = s.regs.kind) ∧
    (seqEn s.regs = false → o.status ≠ .accepted → r.phase = s.regs.phase ∧ r.pass = s.regs.pass)

/-- V15, R71: two words with the same `op` and, for a SEND, the same low byte act alike in every tick. -/
def Obligations.IgnoredBitsDoNotMatter : Prop :=
  ∀ (s : State) (op : BitVec 2) (a a' : BitVec s.cfg.numW),
    (op ≠ 0b11#2 → op ≠ 0b00#2 → a.toNat % 256 = a'.toNat % 256) → (op = 0b11#2 → a = a') →
    step (placeWord s (op ++ a)) = step (placeWord s (op ++ a'))

/-! ### Pin sequencer -/

/-- R100: the sequencer takes a step in a tick exactly when `seq_en` holds. Otherwise phase, pass and every line keep their
values and `byte_done = 0`; a step always moves the phase. -/
def Obligations.SequencerRunsExactlyWhenEnabled : Prop :=
  ∀ (s : State) r o, exec .nop s = .next ⟨s.cfg, r, o, s.inputs⟩ →
    (s.regs.busy = true ∧ (s.regs.kind = .cmd ∨ s.regs.kind = .data ∨ s.regs.kind = .number ∧ s.regs.dcSt = .emit) ↔
      r.phase ≠ s.regs.phase) ∧
    (¬(s.regs.busy = true ∧
        (s.regs.kind = .cmd ∨ s.regs.kind = .data ∨ s.regs.kind = .number ∧ s.regs.dcSt = .emit)) →
      r.phase = s.regs.phase ∧ r.pass = s.regs.pass ∧ r.lcdRs = s.regs.lcdRs ∧ r.lcdRw = s.regs.lcdRw ∧
      r.lcdE = s.regs.lcdE ∧ r.lcdDb = s.regs.lcdDb ∧ o.byteDone = false)

/-- R102, R80: in a sequencer step exactly the line of the phase is written, with the level of the running kind (R76), 0, 0,
the selected bits of the running byte, 1, 0; every other line keeps its value. -/
def Obligations.PhaseWritesOneLine : Prop :=
  ∀ (s : State) r o b, exec .nop s = .next ⟨s.cfg, r, o, s.inputs⟩ → seqEn s.regs = true → txByte s.regs = some b →
    r.lcdRs = (if s.regs.phase.num = 0 then decide (s.regs.kind ≠ .cmd) else s.regs.lcdRs) ∧
    r.lcdRw = (if s.regs.phase.num = 1 then false else s.regs.lcdRw) ∧
    r.lcdE = (if s.regs.phase.num = 4 then true else if s.regs.phase.num = 2 ∨ s.regs.phase.num = 5 then false
      else s.regs.lcdE) ∧
    r.lcdDb = (if s.regs.phase.num = 3 then sel s.cfg.ifWidth b s.regs.pass else s.regs.lcdDb)

/-- R103, R52, R77, R81: phase 3 puts on the data lines, in 8-bit mode, the byte; in 4-bit mode, its high nibble in the
first pass and its low nibble in the second. The byte is `byte_reg`, or 48 plus the presented digit of a number. No other
phase writes the data lines. -/
def Obligations.DataLinesCarryTheSelectedNibble : Prop :=
  ∀ (s : State) r o, exec .nop s = .next ⟨s.cfg, r, o, s.inputs⟩ → seqEn s.regs = true →
    let b := if s.regs.kind = .number then 48 + (if s.regs.dcRev = 0#_ then 0 else s.regs.dcRev.toNat % 10)
      else s.regs.byteReg.toNat
    (s.regs.phase = .presentData → s.cfg.ifWidth = .eight → s.regs.pass = .first → r.lcdDb.toNat = b) ∧
    (s.regs.phase = .presentData → s.cfg.ifWidth = .four → s.regs.pass = .first → r.lcdDb.toNat = b / 16) ∧
    (s.regs.phase = .presentData → s.cfg.ifWidth = .four → s.regs.pass = .second → r.lcdDb.toNat = b % 16) ∧
    (s.regs.phase ≠ .presentData → r.lcdDb = s.regs.lcdDb)

/-- R110: the byte and the register-select level of the running request do not change inside a byte: they are the same after
every tick of it but the last, whatever is presented. -/
def Obligations.ByteIsConstantInsideAByte : Prop :=
  ∀ (i : Instr) (s : State) r o, exec i s = .next ⟨s.cfg, r, o, s.inputs⟩ → seqEn s.regs = true → o.byteDone = false →
    (∃ b, txByte s.regs = some b ∧ txByte r = some b) ∧ rsOf r.kind = rsOf s.regs.kind ∧ seqEn r = true

/-- R106: the counters' advance in a sequencer step, and the byte's completion. -/
def Obligations.CountersAdvance : Prop :=
  ∀ (s : State) r o, exec .nop s = .next ⟨s.cfg, r, o, s.inputs⟩ → seqEn s.regs = true →
    if s.regs.phase.num < 5 then
      r.phase.num = s.regs.phase.num + 1 ∧ r.pass = s.regs.pass ∧ o.byteDone = false
    else if s.cfg.ifWidth = .four ∧ s.regs.pass = .first then
      r.phase.num = s.cfg.pass2Entry.num ∧ r.pass = .second ∧ o.byteDone = false
    else r.phase.num = 0 ∧ r.pass = .first ∧ o.byteDone = true

/-- R107, R108: `byte_done` is 1 exactly in the tick that runs the byte's final phase, and then both counters are back at
0, whatever follows. -/
def Obligations.ByteDoneMarksTheFinalPhase : Prop :=
  ∀ (i : Instr) (s : State) r o, exec i s = .next ⟨s.cfg, r, o, s.inputs⟩ →
    (o.byteDone = true ↔ seqEn s.regs = true ∧ s.regs.phase.num = 5 ∧
      (s.cfg.ifWidth = .eight ∨ s.regs.pass = .second)) ∧
    (o.byteDone = true → r.phase.num = 0 ∧ r.pass = .first)

/-- R105, R61: each strobe is one tick long and every other line stands still around it: in a tick that starts with the
enable line high the line falls, and in that tick, as in the tick that raises it, no other line changes. -/
def Obligations.LinesStandStillAroundTheStrobe : Prop :=
  ∀ (i : Instr) (s : State) r o, StepInvariant s.regs → exec i s = .next ⟨s.cfg, r, o, s.inputs⟩ →
    (s.regs.lcdE = true → r.lcdE = false) ∧
    (s.regs.lcdE = true ∨ r.lcdE = true →
      r.lcdRs = s.regs.lcdRs ∧ r.lcdRw = s.regs.lcdRw ∧ r.lcdDb = s.regs.lcdDb)

/-- R53: `lcd_db[i]` drives DBi with 8 lines and DB(i+4) with 4, where DB3 to DB0 have no port. -/
def Obligations.DataLinesDriveTheirPins : Prop :=
  (∀ (db : BitVec IfWidth.eight.bits) (i : Fin 8), dbPin .eight db i = some (db.getLsbD i)) ∧
  (∀ (db : BitVec IfWidth.four.bits) (i j : Fin 8), j.val = i.val + 4 → dbPin .four db j = some (db.getLsbD i)) ∧
  (∀ (db : BitVec IfWidth.four.bits) (i : Fin 8), i.val < 4 → dbPin .four db i = none)

/-- R38: the output ports are the line registers and `busy` at the end of the tick, and the tick's verdict and completion
outputs, NOT_READY being code 10. -/
def Obligations.PortsShowTheEndOfTheTick : Prop :=
  ∀ (i : Instr) (s : State) r o, exec i s = .next ⟨s.cfg, r, o, s.inputs⟩ →
    ports ⟨s.cfg, r, o, s.inputs⟩ = ⟨r.lcdRs, r.lcdRw, r.lcdE, r.lcdDb, r.busy,
      (if i = .nop then 0b00#2 else if s.regs.busy = true ∧ o.done = false then 0b10#2 else 0b01#2), o.byteDone, o.done⟩

/-! ### Completion -/

/-- R138: a CMD or DATA request completes in the tick its byte completes. -/
def Obligations.SendCompletesWithItsByte : Prop :=
  ∀ (i : Instr) (s : State) r o, exec i s = .next ⟨s.cfg, r, o, s.inputs⟩ →
    (s.regs.kind = .cmd ∨ s.regs.kind = .data) → o.done = o.byteDone

/-- R139: in the tick a request completes the slot is written idle with its counters at their start, and a request accepted
in the same tick overrides `busy` and `kind`. -/
def Obligations.TerminalProtocol : Prop :=
  ∀ (i : Instr) (s : State) r o, StepInvariant s.regs → exec i s = .next ⟨s.cfg, r, o, s.inputs⟩ → o.done = true →
    r.phase = .setRs ∧ r.pass = .first ∧
    (i = .nop → r.busy = false ∧ r.kind = .none ∧ r.dcSt = .idle) ∧
    (i ≠ .nop → r.busy = true ∧ r.kind.code = opcode i)

/-- R136: a running request takes its ticks one by one, whatever is presented: until its last tick it stays, rejects what
is presented and has one tick less to go; it completes in its last tick and in no other. -/
def Obligations.RunningRequestCannotBeStopped : Prop :=
  ∀ (i : Instr) (s : State) r o, StepInvariant s.regs → s.regs.busy = true → exec i s = .next ⟨s.cfg, r, o, s.inputs⟩ →
    0 < ticksLeft s.regs ∧ (o.done = true ↔ ticksLeft s.regs = 1) ∧
    (1 < ticksLeft s.regs → r.busy = true ∧ r.kind = s.regs.kind ∧ r.byteReg = s.regs.byteReg ∧
      ticksLeft r + 1 = ticksLeft s.regs ∧ (i ≠ .nop → o.status = .notReady))

/-- R141, R109, R160: an accepted request has `P` ticks to go, or `n·(1 + P)` for a number of `n > 0` decimal digits; `P` is
6 with 8 lines, 9 with 4 at `PASS2_ENTRY = 3`, 12 at 0. A NOP gives an idle block nothing to do. -/
def Obligations.AcceptedRequestDurations : Prop :=
  ∀ (i : Instr) (s : State) r o, StepInvariant s.regs → i.wf s.cfg.numW = true →
    exec i s = .next ⟨s.cfg, r, o, s.inputs⟩ →
    (o.status = .accepted → ticksLeft r =
      match i with
      | .nop => 0
      | .sendCmd _ => s.cfg.byteTicks
      | .sendData _ => s.cfg.byteTicks
      | .writeNumber v => if v = 0 then s.cfg.byteTicks else (Nat.digits 10 v).length * (1 + s.cfg.byteTicks)) ∧
    (i = .nop → s.regs.busy = false → ticksLeft r = 0) ∧
    (s.cfg.ifWidth = .eight → s.cfg.byteTicks = 6) ∧
    (s.cfg.ifWidth = .four → s.cfg.pass2Entry = .three → s.cfg.byteTicks = 9) ∧
    (s.cfg.ifWidth = .four → s.cfg.pass2Entry = .zero → s.cfg.byteTicks = 12)

/-- R140: without a reset, a running request drives `done` in its last tick and in none before, whatever the host presents in
each tick; and no tick has `done = 1` without an accepted request running, nor a completion without its last byte's. -/
def Obligations.ExactlyOneCompletion : Prop :=
  (∀ (s t : State) (k : Nat), StepInvariant s.regs → s.regs.busy = true → NoReset (ticksLeft s.regs) s →
    1 ≤ k → k ≤ ticksLeft s.regs → Host.Core.run Sys2Proof.core k s = .next t →
    (t.out.done = true ↔ k = ticksLeft s.regs)) ∧
  (∀ (i : Instr) (s : State) r o, exec i s = .next ⟨s.cfg, r, o, s.inputs⟩ → o.done = true →
    s.regs.busy = true ∧ s.regs.kind ≠ .none ∧ o.byteDone = true)

/-! ### Decimal digit converter -/

/-- R9: what the derived constants are: `D_MAX` digits for the largest value, and the least widths that hold the accumulator
and the zero counter; the table's values at `NUM_W` 32, 16 and 8. -/
def Obligations.DerivedConstants : Prop :=
  (∀ c : Config,
    c.dMax = (Nat.digits 10 (2 ^ c.numW - 1)).length ∧
    10 ^ c.dMax - 1 < 2 ^ c.accW ∧ (∀ w, 10 ^ c.dMax - 1 < 2 ^ w → c.accW ≤ w) ∧
    c.dMax - 1 < 2 ^ c.tzW ∧ (∀ w, c.dMax - 1 < 2 ^ w → c.tzW ≤ w) ∧
    (c.byteTicks = if c.ifWidth = .eight then 6 else 12 - c.pass2Entry.num)) ∧
  (∀ c : Config, c.numW = 32 → c.dMax = 10 ∧ c.accW = 34 ∧ c.tzW = 4) ∧
  (∀ c : Config, c.numW = 16 → c.dMax = 5 ∧ c.accW = 17 ∧ c.tzW = 3) ∧
  (∀ c : Config, c.numW = 8 → c.dMax = 3 ∧ c.accW = 10 ∧ c.tzW = 2)

/-- R153: one reversal step, exact in every register; it writes no line and drives neither completion output. A value of
`n` digits has `n − 1` left after it, and REV ends with the last one. -/
def Obligations.ReversalStepTakesOneDigit : Prop :=
  ∀ s : State, StepInvariant s.regs → s.regs.busy = true → s.regs.kind = .number → s.regs.dcSt = .rev →
    ∃ r, exec .nop s = .next ⟨s.cfg, r, ⟨.none, false, false⟩, s.inputs⟩ ∧
      r.dcRev.toNat = s.regs.dcRev.toNat * 10 + s.regs.dcV.toNat % 10 ∧
      r.dcTz.toNat = s.regs.dcTz.toNat + (if s.regs.dcRev = 0#_ ∧ s.regs.dcV.toNat % 10 = 0 then 1 else 0) ∧
      r.dcV.toNat = s.regs.dcV.toNat / 10 ∧
      r.dcSt = (if s.regs.dcV.toNat / 10 = 0 then .emit else .rev) ∧
      (Nat.digits 10 r.dcV.toNat).length + 1 = (Nat.digits 10 s.regs.dcV.toNat).length ∧
      (r.dcSt = .emit ↔ (Nat.digits 10 s.regs.dcV.toNat).length = 1) ∧
      r.busy = s.regs.busy ∧ r.kind = s.regs.kind ∧ r.byteReg = s.regs.byteReg ∧ r.phase = s.regs.phase ∧
      r.pass = s.regs.pass ∧ r.lcdRs = s.regs.lcdRs ∧ r.lcdRw = s.regs.lcdRw ∧ r.lcdE = s.regs.lcdE ∧
      r.lcdDb = s.regs.lcdDb

/-- R154: what the reversal of `v > 0` leaves after its `n` ticks: `dc_v = 0`, `dc_tz` the number of trailing zeros of `v`,
and `dc_rev` the number whose decimal numeral is that of `v`, read backwards, without those zeros. -/
def Obligations.ReversalLeavesTheReversedNumeral : Prop :=
  ∀ (s t : State) (v : Nat), 0 < v → v < 2 ^ s.cfg.numW → s.regs.busy = true → s.regs.kind = .number →
    s.regs.dcSt = .rev → s.regs.dcV.toNat = v → s.regs.dcRev = 0#_ → s.regs.dcTz = 0#_ →
    NoReset (Nat.digits 10 v).length s →
    Host.Core.run Sys2Proof.core (Nat.digits 10 v).length s = .next t →
    t.regs.dcSt = .emit ∧ t.regs.dcV.toNat = 0 ∧
    t.regs.dcTz.toNat = ((Nat.digits 10 v).takeWhile (· = 0)).length ∧
    Nat.digits 10 t.regs.dcRev.toNat = ((Nat.digits 10 v).dropWhile (· = 0)).reverse

/-- R156: in EMIT the converter moves on exactly in the tick a digit's byte completes, and keeps every register else. -/
def Obligations.DigitConsumedWithItsByte : Prop :=
  ∀ (s : State) r o, StepInvariant s.regs → s.regs.dcSt = .emit →
    exec .nop s = .next ⟨s.cfg, r, o, s.inputs⟩ →
    (o.byteDone = true → s.regs.dcRev ≠ 0#_ →
      r.dcRev.toNat = s.regs.dcRev.toNat / 10 ∧ r.dcTz = s.regs.dcTz) ∧
    (o.byteDone = true → s.regs.dcRev = 0#_ → r.dcRev = 0#_ ∧ r.dcTz.toNat + 1 = s.regs.dcTz.toNat) ∧
    (o.byteDone = false → r.dcSt = s.regs.dcSt ∧ r.dcV = s.regs.dcV ∧ r.dcRev = s.regs.dcRev ∧ r.dcTz = s.regs.dcTz)

/-- R157: a number completes in the tick that consumes its last digit; otherwise EMIT goes on and the next byte starts at
phase 0. -/
def Obligations.ExhaustedConverterCompletes : Prop :=
  ∀ (s : State) r o, StepInvariant s.regs → s.regs.dcSt = .emit →
    exec .nop s = .next ⟨s.cfg, r, o, s.inputs⟩ → o.byteDone = true →
    (o.done = true ↔ r.dcRev = 0#_ ∧ r.dcTz = 0#_) ∧
    (o.done = true → r.dcSt = .idle ∧ r.busy = false ∧ r.kind = .none) ∧
    (o.done = false → r.dcSt = .emit ∧ r.busy = true ∧ r.kind = .number ∧ r.phase = .setRs ∧ r.pass = .first)

/-- R158: from a state with the invariant no converter result leaves its register's width, and 1 is never taken from a zero
count: no free value of the converter is used. -/
def Obligations.ConverterNeverOverflows : Prop :=
  ∀ s : State, StepInvariant s.regs →
    (s.regs.dcSt = .rev →
      s.regs.dcRev.toNat * 10 + s.regs.dcV.toNat % 10 < 2 ^ s.cfg.accW ∧
      (s.regs.dcRev = 0#_ → s.regs.dcV.toNat % 10 = 0 → s.regs.dcTz.toNat + 1 < 2 ^ s.cfg.tzW)) ∧
    (s.regs.dcSt = .emit → s.regs.dcRev = 0#_ → 1 ≤ s.regs.dcTz.toNat) ∧
    (∀ b, txByte s.regs = some b → s.regs.kind = .number → b.toNat ≤ 0x39)

/-- R151: nothing carries from one number to the next, and no SEND touches the converter: an accepted WRITE_NUMBER leaves the
same converter from any two states, and an accepted SEND leaves it as it stands after the tick's own work. -/
def Obligations.NumbersDoNotInteract : Prop :=
  (∀ (c : Config) (v : Nat) (q q' : Regs c) (u u' : Outputs) (ins ins' : List (Input c.numW)) r o r' o',
    exec (.writeNumber v) ⟨c, q, u, ins⟩ = .next ⟨c, r, o, ins⟩ →
    exec (.writeNumber v) ⟨c, q', u', ins'⟩ = .next ⟨c, r', o', ins'⟩ →
    o.status = .accepted → o'.status = .accepted →
    r.dcSt = r'.dcSt ∧ r.dcV = r'.dcV ∧ r.dcRev = r'.dcRev ∧ r.dcTz = r'.dcTz) ∧
  (∀ (s : State) (b : Byte) r o r' o' n u, exec (.sendCmd b) s = .next ⟨s.cfg, r, o, s.inputs⟩ →
    exec (.sendData b) s = .next ⟨s.cfg, r', o', s.inputs⟩ → exec .nop s = .next ⟨s.cfg, n, u, s.inputs⟩ →
    (r.dcSt = n.dcSt ∧ r.dcV = n.dcV ∧ r.dcRev = n.dcRev ∧ r.dcTz = n.dcTz) ∧
    (r'.dcSt = n.dcSt ∧ r'.dcV = n.dcV ∧ r'.dcRev = n.dcRev ∧ r'.dcTz = n.dcTz))

/-- The digits a number still has to send are its decimal numeral when it is loaded (R150), do not change while it is
reversed or while a digit's byte is on its way, and lose their first in the tick that digit's byte completes (R54, R155,
R156). -/
def Obligations.DigitsLeaveMostSignificantFirst : Prop :=
  (∀ (v : Nat) (s : State) r o, v < 2 ^ s.cfg.numW → exec (.writeNumber v) s = .next ⟨s.cfg, r, o, s.inputs⟩ →
    o.status = .accepted → digitsLeft r = numeral v) ∧
  (∀ (s : State) r o, StepInvariant s.regs → s.regs.kind = .number → exec .nop s = .next ⟨s.cfg, r, o, s.inputs⟩ →
    (o.byteDone = false → digitsLeft r = digitsLeft s.regs) ∧
    (o.byteDone = true → ∃ d ds, digitsLeft s.regs = d :: ds ∧ digitsLeft r = ds ∧
      txByte s.regs = some (BitVec.ofNat 8 (48 + d))))

/-! ### Whole requests and runs -/

/-- R134, R135, R184: a SEND presented to an idle block makes the display latch its byte, whole or high nibble first, with
the register-select level of its kind, and completes `P` ticks after its accepting tick, whatever is presented meanwhile. -/
def Obligations.SentByteReachesTheDisplay : Prop :=
  ∀ (s : State) (b : Byte) (rs : Bool), StepInvariant s.regs → s.regs.busy = false →
    NoReset (1 + s.cfg.byteTicks) s →
    decode (nextInput s).word = (if rs then .sendData b else .sendCmd b) →
    (∃ t, Host.Core.run Sys2Proof.core (1 + s.cfg.byteTicks) s = .next t ∧ t.out.done = true) ∧
    receivedBytes s.cfg.ifWidth (latches (1 + s.cfg.byteTicks) s) = [⟨rs, b⟩]

/-- R159, R160, R184: a WRITE_NUMBER presented to an idle block sends the decimal numeral of its value, most significant digit
first, each digit as the data byte digit + 48; the display receives exactly these bytes as data, and the request completes
`T(v)` ticks after its accepting tick, whatever is presented meanwhile. -/
def Obligations.NumberReachesTheDisplay : Prop :=
  ∀ (s : State) (v : Nat), StepInvariant s.regs → s.regs.busy = false → decode (nextInput s).word = .writeNumber v →
    NoReset (1 + numberTicks s.cfg v) s →
    (∃ t, Host.Core.run Sys2Proof.core (1 + numberTicks s.cfg v) s = .next t ∧ t.out.done = true) ∧
    sentBytes (1 + numberTicks s.cfg v) s = (numeral v).map (fun d => BitVec.ofNat 8 (48 + d)) ∧
    receivedBytes s.cfg.ifWidth (latches (1 + numberTicks s.cfg v) s) =
      (numeral v).map (fun d => ⟨true, BitVec.ofNat 8 (48 + d)⟩)

/-- R185: an idle block stays as it is under NOPs, and from every state with the invariant NOPs bring it to rest within
`max(P, D_MAX·(1 + P))` ticks. -/
def Obligations.NopsBringTheBlockToRest : Prop :=
  (∀ s : State, OnlyNops s → Quiescent s →
    step s = .next ⟨s.cfg, s.regs, ⟨.none, false, false⟩, s.inputs.tail⟩) ∧
  (∀ s : State, StepInvariant s.regs → OnlyNops s →
    ∃ k t, k ≤ max s.cfg.byteTicks (s.cfg.dMax * (1 + s.cfg.byteTicks)) ∧
      Host.Core.run Sys2Proof.core k s = .next t ∧ Quiescent t)

/-- R186: the run of every program, from every state with the invariant, ends in a quiescent state. -/
def Obligations.EveryProgramRunComesToRest : Prop :=
  ∀ (s : State) (is : List Instr), StepInvariant s.regs → ∃ t, runProgram s is = .next t ∧ Quiescent t

/-- R186: the run of a program as ticks. Its end state is that of exactly `runTicks` ticks from the start with the program
presented, it is quiescent, and no state after the last request and before it is; the trace has one entry for each of
these ticks, in order, each the ports at the end of its tick. -/
def Obligations.ProgramTraceIsEveryTickOfTheRun : Prop :=
  ∀ (s : State) (is : List Instr), StepInvariant s.regs →
    (∃ t, runProgram s is = .next t ∧ Quiescent t ∧
      Host.Core.run Sys2Proof.core (runTicks s is) (loadProgram s is) = .next t) ∧
    is.length ≤ runTicks s is ∧ runTicks s is ≤ is.length + settleBound s.cfg ∧
    (∀ k u, is.length ≤ k → k < runTicks s is →
      Host.Core.run Sys2Proof.core k (loadProgram s is) = .next u → ¬Quiescent u) ∧
    (programTrace s is).length = runTicks s is ∧
    (∀ k u, k < runTicks s is → Host.Core.run Sys2Proof.core (k + 1) (loadProgram s is) = .next u →
      (programTrace s is)[k]? = some ⟨u.cfg, ports u⟩)

/-- R88, R51: SEND_STRING presented to an idle block sends its characters in order, back to back, and no other byte. -/
def Obligations.StringIsSentInOrder : Prop :=
  ∀ (s : State) (cs : List Byte), StepInvariant s.regs → s.regs.busy = false →
    sentBytes (cs.length * s.cfg.byteTicks + 1) (loadProgram s (Line.expand s.cfg (.sendString cs))) = cs
end

