-- ==== Sys2Proof/Laws/Config.lean ====
section
/-! SUPPORT. What the derived constants of R9 are: the digit count is Mathlib's, and the converter's registers are wide
enough for it (R158). -/

namespace Sys2Proof

theorem numDigitsFuel_pos (fuel n : Nat) : 1 ≤ numDigitsFuel fuel n := by
  cases fuel with
  | zero => exact le_rfl
  | succ f => unfold numDigitsFuel; split <;> omega

/-- With enough fuel the count is the length of the decimal numeral. -/
theorem numDigitsFuel_eq_length {fuel n : Nat} (hn : 0 < n) (hf : n < 10 ^ fuel) :
    numDigitsFuel fuel n = (Nat.digits 10 n).length := by
  induction fuel generalizing n with
  | zero => simp at hf; omega
  | succ f ih =>
    rw [Nat.digits_def' (by norm_num) hn]
    unfold numDigitsFuel
    split
    · simp [Nat.div_eq_of_lt ‹_›]
    · rw [List.length_cons, ih (Nat.div_pos (by omega) (by norm_num))]
      rw [pow_succ] at hf
      exact Nat.div_lt_of_lt_mul (by omega)

theorem lt_two_pow_bitLength (n : Nat) : n < 2 ^ bitLength n := by
  unfold bitLength
  split
  · simp_all
  · exact Nat.lt_log2_self

theorem two_pow_le_ten_pow (n : Nat) : 2 ^ n ≤ 10 ^ n := Nat.pow_le_pow_left (by norm_num) n

theorem Config.two_pow_numW_ge (c : Config) : 256 ≤ 2 ^ c.numW :=
  le_trans (by norm_num) (Nat.pow_le_pow_right (by norm_num : 0 < 2) c.numW_ge)

theorem Config.dMax_eq (c : Config) : c.dMax = (Nat.digits 10 (2 ^ c.numW - 1)).length := by
  have h := c.two_pow_numW_ge
  have h' := two_pow_le_ten_pow c.numW
  exact numDigitsFuel_eq_length (by omega) (by omega)

/-- A value of `NUM_W` bits has at most `D_MAX` decimal digits. -/
theorem Config.lt_ten_pow_dMax (c : Config) {n : Nat} (h : n < 2 ^ c.numW) : n < 10 ^ c.dMax := by
  have := Nat.lt_base_pow_length_digits (m := 2 ^ c.numW - 1) (by norm_num : 1 < 10)
  rw [c.dMax_eq]
  omega

theorem Config.three_le_dMax (c : Config) : 3 ≤ c.dMax := by
  by_contra h
  have h1 : 10 ^ c.dMax ≤ 10 ^ 2 := Nat.pow_le_pow_right (by norm_num) (by omega)
  have h2 := c.lt_ten_pow_dMax (n := 2 ^ c.numW - 1) (by have := c.two_pow_numW_ge; omega)
  have := c.two_pow_numW_ge
  omega

/-- The accumulator holds every number of `D_MAX` digits (R158). -/
theorem Config.ten_pow_dMax_le (c : Config) : 10 ^ c.dMax ≤ 2 ^ c.accW := by
  have := lt_two_pow_bitLength (10 ^ c.dMax - 1)
  unfold Config.accW
  omega

/-- The trailing-zero counter holds every count up to `D_MAX − 1` (R158). -/
theorem Config.dMax_lt_tzW (c : Config) : c.dMax - 1 < 2 ^ c.tzW := lt_two_pow_bitLength _

theorem Config.byteTicks_pos (c : Config) : 6 ≤ c.byteTicks := by
  unfold Config.byteTicks
  split
  · exact le_rfl
  · cases c.pass2Entry <;> simp [Pass2Entry.num]

/-- `1` fits the zero counter. -/
theorem Config.one_lt_tzW (c : Config) : 1 < 2 ^ c.tzW := by
  have := c.dMax_lt_tzW; have := c.three_le_dMax; omega

/-- `bitLength n` is the least width that holds `n`. -/
theorem bitLength_le {n w : Nat} (h : n < 2 ^ w) : bitLength n ≤ w := by
  unfold bitLength
  split
  · omega
  · have := (Nat.log2_lt ‹_›).2 h; omega

end Sys2Proof
end

