-- ==== Sys2Proof/Laws/Decode.lean ====
section
/-! SUPPORT. The fields of a request word put together from its fields. -/

namespace Sys2Proof

@[simp] theorem opField_append {n : Nat} (op : BitVec 2) (arg : BitVec n) : opField (n := n) (op ++ arg) = op := by
  apply BitVec.eq_of_toNat_eq
  have h := arg.isLt
  have h2 := op.isLt
  simp only [opField, BitVec.extractLsb'_toNat, BitVec.toNat_append]
  rw [Nat.shiftRight_eq_div_pow, Nat.shiftLeft_eq, Nat.mul_comm, ← Nat.two_pow_add_eq_or_of_lt h,
    Nat.mul_add_div (Nat.two_pow_pos n), Nat.div_eq_of_lt h, Nat.add_zero, Nat.mod_eq_of_lt h2]

@[simp] theorem argField_append {n : Nat} (op : BitVec 2) (arg : BitVec n) : argField (n := n) (op ++ arg) = arg := by
  apply BitVec.eq_of_toNat_eq
  have h := arg.isLt
  simp only [argField, BitVec.extractLsb'_toNat, BitVec.toNat_append]
  rw [Nat.shiftRight_zero, Nat.shiftLeft_eq, Nat.mul_comm, ← Nat.two_pow_add_eq_or_of_lt h, Nat.mul_add_mod,
    Nat.mod_eq_of_lt h]

@[simp] theorem argField_encode (n : Nat) (i : Instr) : argField (encode n i) = operandBits n i := argField_append _ _

end Sys2Proof
end

