-- ==== Sys2Proof/Laws/State.lean ====
section
/-! SUPPORT. One lemma per register and named update: what the update leaves in the register. Each is true by `rfl`. -/

namespace Sys2Proof.Machine

variable {c : Config}

@[simp] theorem releaseSlot_busy (r : Regs c) : (releaseSlot r).busy = false := rfl
@[simp] theorem releaseSlot_kind (r : Regs c) : (releaseSlot r).kind = .none := rfl
@[simp] theorem releaseSlot_byteReg (r : Regs c) : (releaseSlot r).byteReg = r.byteReg := rfl
@[simp] theorem releaseSlot_phase (r : Regs c) : (releaseSlot r).phase = r.phase := rfl
@[simp] theorem releaseSlot_pass (r : Regs c) : (releaseSlot r).pass = r.pass := rfl
@[simp] theorem releaseSlot_dcSt (r : Regs c) : (releaseSlot r).dcSt = r.dcSt := rfl
@[simp] theorem releaseSlot_dcV (r : Regs c) : (releaseSlot r).dcV = r.dcV := rfl
@[simp] theorem releaseSlot_dcRev (r : Regs c) : (releaseSlot r).dcRev = r.dcRev := rfl
@[simp] theorem releaseSlot_dcTz (r : Regs c) : (releaseSlot r).dcTz = r.dcTz := rfl
@[simp] theorem releaseSlot_lcdRs (r : Regs c) : (releaseSlot r).lcdRs = r.lcdRs := rfl
@[simp] theorem releaseSlot_lcdRw (r : Regs c) : (releaseSlot r).lcdRw = r.lcdRw := rfl
@[simp] theorem releaseSlot_lcdE (r : Regs c) : (releaseSlot r).lcdE = r.lcdE := rfl
@[simp] theorem releaseSlot_lcdDb (r : Regs c) : (releaseSlot r).lcdDb = r.lcdDb := rfl

@[simp] theorem occupySlot_busy (k : Kind) (r : Regs c) : (occupySlot k r).busy = true := rfl
@[simp] theorem occupySlot_kind (k : Kind) (r : Regs c) : (occupySlot k r).kind = k := rfl
@[simp] theorem occupySlot_byteReg (k : Kind) (r : Regs c) : (occupySlot k r).byteReg = r.byteReg := rfl
@[simp] theorem occupySlot_phase (k : Kind) (r : Regs c) : (occupySlot k r).phase = .setRs := rfl
@[simp] theorem occupySlot_pass (k : Kind) (r : Regs c) : (occupySlot k r).pass = .first := rfl
@[simp] theorem occupySlot_dcSt (k : Kind) (r : Regs c) : (occupySlot k r).dcSt = r.dcSt := rfl
@[simp] theorem occupySlot_dcV (k : Kind) (r : Regs c) : (occupySlot k r).dcV = r.dcV := rfl
@[simp] theorem occupySlot_dcRev (k : Kind) (r : Regs c) : (occupySlot k r).dcRev = r.dcRev := rfl
@[simp] theorem occupySlot_dcTz (k : Kind) (r : Regs c) : (occupySlot k r).dcTz = r.dcTz := rfl
@[simp] theorem occupySlot_lcdRs (k : Kind) (r : Regs c) : (occupySlot k r).lcdRs = r.lcdRs := rfl
@[simp] theorem occupySlot_lcdRw (k : Kind) (r : Regs c) : (occupySlot k r).lcdRw = r.lcdRw := rfl
@[simp] theorem occupySlot_lcdE (k : Kind) (r : Regs c) : (occupySlot k r).lcdE = r.lcdE := rfl
@[simp] theorem occupySlot_lcdDb (k : Kind) (r : Regs c) : (occupySlot k r).lcdDb = r.lcdDb := rfl

@[simp] theorem loadByte_busy (b : Byte) (r : Regs c) : (loadByte b r).busy = r.busy := rfl
@[simp] theorem loadByte_kind (b : Byte) (r : Regs c) : (loadByte b r).kind = r.kind := rfl
@[simp] theorem loadByte_byteReg (b : Byte) (r : Regs c) : (loadByte b r).byteReg = b := rfl
@[simp] theorem loadByte_phase (b : Byte) (r : Regs c) : (loadByte b r).phase = r.phase := rfl
@[simp] theorem loadByte_pass (b : Byte) (r : Regs c) : (loadByte b r).pass = r.pass := rfl
@[simp] theorem loadByte_dcSt (b : Byte) (r : Regs c) : (loadByte b r).dcSt = r.dcSt := rfl
@[simp] theorem loadByte_dcV (b : Byte) (r : Regs c) : (loadByte b r).dcV = r.dcV := rfl
@[simp] theorem loadByte_dcRev (b : Byte) (r : Regs c) : (loadByte b r).dcRev = r.dcRev := rfl
@[simp] theorem loadByte_dcTz (b : Byte) (r : Regs c) : (loadByte b r).dcTz = r.dcTz := rfl
@[simp] theorem loadByte_lcdRs (b : Byte) (r : Regs c) : (loadByte b r).lcdRs = r.lcdRs := rfl
@[simp] theorem loadByte_lcdRw (b : Byte) (r : Regs c) : (loadByte b r).lcdRw = r.lcdRw := rfl
@[simp] theorem loadByte_lcdE (b : Byte) (r : Regs c) : (loadByte b r).lcdE = r.lcdE := rfl
@[simp] theorem loadByte_lcdDb (b : Byte) (r : Regs c) : (loadByte b r).lcdDb = r.lcdDb := rfl

@[simp] theorem loadConverter_busy (st : DcStep) (v : BitVec c.numW) (rev : BitVec c.accW) (tz : BitVec c.tzW)
    (r : Regs c) : (loadConverter st v rev tz r).busy = r.busy := rfl
@[simp] theorem loadConverter_kind (st : DcStep) (v : BitVec c.numW) (rev : BitVec c.accW) (tz : BitVec c.tzW)
    (r : Regs c) : (loadConverter st v rev tz r).kind = r.kind := rfl
@[simp] theorem loadConverter_byteReg (st : DcStep) (v : BitVec c.numW) (rev : BitVec c.accW) (tz : BitVec c.tzW)
    (r : Regs c) : (loadConverter st v rev tz r).byteReg = r.byteReg := rfl
@[simp] theorem loadConverter_phase (st : DcStep) (v : BitVec c.numW) (rev : BitVec c.accW) (tz : BitVec c.tzW)
    (r : Regs c) : (loadConverter st v rev tz r).phase = r.phase := rfl
@[simp] theorem loadConverter_pass (st : DcStep) (v : BitVec c.numW) (rev : BitVec c.accW) (tz : BitVec c.tzW)
    (r : Regs c) : (loadConverter st v rev tz r).pass = r.pass := rfl
@[simp] theorem loadConverter_dcSt (st : DcStep) (v : BitVec c.numW) (rev : BitVec c.accW) (tz : BitVec c.tzW)
    (r : Regs c) : (loadConverter st v rev tz r).dcSt = st := rfl
@[simp] theorem loadConverter_dcV (st : DcStep) (v : BitVec c.numW) (rev : BitVec c.accW) (tz : BitVec c.tzW)
    (r : Regs c) : (loadConverter st v rev tz r).dcV = v := rfl
@[simp] theorem loadConverter_dcRev (st : DcStep) (v : BitVec c.numW) (rev : BitVec c.accW) (tz : BitVec c.tzW)
    (r : Regs c) : (loadConverter st v rev tz r).dcRev = rev := rfl
@[simp] theorem loadConverter_dcTz (st : DcStep) (v : BitVec c.numW) (rev : BitVec c.accW) (tz : BitVec c.tzW)
    (r : Regs c) : (loadConverter st v rev tz r).dcTz = tz := rfl
@[simp] theorem loadConverter_lcdRs (st : DcStep) (v : BitVec c.numW) (rev : BitVec c.accW) (tz : BitVec c.tzW)
    (r : Regs c) : (loadConverter st v rev tz r).lcdRs = r.lcdRs := rfl
@[simp] theorem loadConverter_lcdRw (st : DcStep) (v : BitVec c.numW) (rev : BitVec c.accW) (tz : BitVec c.tzW)
    (r : Regs c) : (loadConverter st v rev tz r).lcdRw = r.lcdRw := rfl
@[simp] theorem loadConverter_lcdE (st : DcStep) (v : BitVec c.numW) (rev : BitVec c.accW) (tz : BitVec c.tzW)
    (r : Regs c) : (loadConverter st v rev tz r).lcdE = r.lcdE := rfl
@[simp] theorem loadConverter_lcdDb (st : DcStep) (v : BitVec c.numW) (rev : BitVec c.accW) (tz : BitVec c.tzW)
    (r : Regs c) : (loadConverter st v rev tz r).lcdDb = r.lcdDb := rfl

@[simp] theorem setCounters_busy (p : Phase) (q : Pass) (r : Regs c) : (setCounters p q r).busy = r.busy := rfl
@[simp] theorem setCounters_kind (p : Phase) (q : Pass) (r : Regs c) : (setCounters p q r).kind = r.kind := rfl
@[simp] theorem setCounters_byteReg (p : Phase) (q : Pass) (r : Regs c) : (setCounters p q r).byteReg = r.byteReg := rfl
@[simp] theorem setCounters_phase (p : Phase) (q : Pass) (r : Regs c) : (setCounters p q r).phase = p := rfl
@[simp] theorem setCounters_pass (p : Phase) (q : Pass) (r : Regs c) : (setCounters p q r).pass = q := rfl
@[simp] theorem setCounters_dcSt (p : Phase) (q : Pass) (r : Regs c) : (setCounters p q r).dcSt = r.dcSt := rfl
@[simp] theorem setCounters_dcV (p : Phase) (q : Pass) (r : Regs c) : (setCounters p q r).dcV = r.dcV := rfl
@[simp] theorem setCounters_dcRev (p : Phase) (q : Pass) (r : Regs c) : (setCounters p q r).dcRev = r.dcRev := rfl
@[simp] theorem setCounters_dcTz (p : Phase) (q : Pass) (r : Regs c) : (setCounters p q r).dcTz = r.dcTz := rfl
@[simp] theorem setCounters_lcdRs (p : Phase) (q : Pass) (r : Regs c) : (setCounters p q r).lcdRs = r.lcdRs := rfl
@[simp] theorem setCounters_lcdRw (p : Phase) (q : Pass) (r : Regs c) : (setCounters p q r).lcdRw = r.lcdRw := rfl
@[simp] theorem setCounters_lcdE (p : Phase) (q : Pass) (r : Regs c) : (setCounters p q r).lcdE = r.lcdE := rfl
@[simp] theorem setCounters_lcdDb (p : Phase) (q : Pass) (r : Regs c) : (setCounters p q r).lcdDb = r.lcdDb := rfl

@[simp] theorem setDcSt_busy (st : DcStep) (r : Regs c) : (setDcSt st r).busy = r.busy := rfl
@[simp] theorem setDcSt_kind (st : DcStep) (r : Regs c) : (setDcSt st r).kind = r.kind := rfl
@[simp] theorem setDcSt_byteReg (st : DcStep) (r : Regs c) : (setDcSt st r).byteReg = r.byteReg := rfl
@[simp] theorem setDcSt_phase (st : DcStep) (r : Regs c) : (setDcSt st r).phase = r.phase := rfl
@[simp] theorem setDcSt_pass (st : DcStep) (r : Regs c) : (setDcSt st r).pass = r.pass := rfl
@[simp] theorem setDcSt_dcSt (st : DcStep) (r : Regs c) : (setDcSt st r).dcSt = st := rfl
@[simp] theorem setDcSt_dcV (st : DcStep) (r : Regs c) : (setDcSt st r).dcV = r.dcV := rfl
@[simp] theorem setDcSt_dcRev (st : DcStep) (r : Regs c) : (setDcSt st r).dcRev = r.dcRev := rfl
@[simp] theorem setDcSt_dcTz (st : DcStep) (r : Regs c) : (setDcSt st r).dcTz = r.dcTz := rfl
@[simp] theorem setDcSt_lcdRs (st : DcStep) (r : Regs c) : (setDcSt st r).lcdRs = r.lcdRs := rfl
@[simp] theorem setDcSt_lcdRw (st : DcStep) (r : Regs c) : (setDcSt st r).lcdRw = r.lcdRw := rfl
@[simp] theorem setDcSt_lcdE (st : DcStep) (r : Regs c) : (setDcSt st r).lcdE = r.lcdE := rfl
@[simp] theorem setDcSt_lcdDb (st : DcStep) (r : Regs c) : (setDcSt st r).lcdDb = r.lcdDb := rfl

@[simp] theorem reset_busy (c : Config) : (Regs.reset c).busy = false := rfl
@[simp] theorem reset_kind (c : Config) : (Regs.reset c).kind = .none := rfl
@[simp] theorem reset_byteReg (c : Config) : (Regs.reset c).byteReg = 0#_ := rfl
@[simp] theorem reset_phase (c : Config) : (Regs.reset c).phase = .setRs := rfl
@[simp] theorem reset_pass (c : Config) : (Regs.reset c).pass = .first := rfl
@[simp] theorem reset_dcSt (c : Config) : (Regs.reset c).dcSt = .idle := rfl
@[simp] theorem reset_dcV (c : Config) : (Regs.reset c).dcV = 0#_ := rfl
@[simp] theorem reset_dcRev (c : Config) : (Regs.reset c).dcRev = 0#_ := rfl
@[simp] theorem reset_dcTz (c : Config) : (Regs.reset c).dcTz = 0#_ := rfl
@[simp] theorem reset_lcdRs (c : Config) : (Regs.reset c).lcdRs = false := rfl
@[simp] theorem reset_lcdRw (c : Config) : (Regs.reset c).lcdRw = false := rfl
@[simp] theorem reset_lcdE (c : Config) : (Regs.reset c).lcdE = false := rfl
@[simp] theorem reset_lcdDb (c : Config) : (Regs.reset c).lcdDb = 0#_ := rfl

@[simp] theorem dropInput_cfg (s : State) : (dropInput s).cfg = s.cfg := rfl
@[simp] theorem dropInput_regs (s : State) : (dropInput s).regs = s.regs := rfl
@[simp] theorem dropInput_out (s : State) : (dropInput s).out = s.out := rfl
@[simp] theorem dropInput_inputs (s : State) : (dropInput s).inputs = s.inputs.tail := rfl

@[simp] theorem resetTick_cfg (s : State) : (resetTick s).cfg = s.cfg := rfl
@[simp] theorem resetTick_regs (s : State) : (resetTick s).regs = Regs.reset s.cfg := rfl
@[simp] theorem resetTick_out (s : State) : (resetTick s).out = Outputs.quiet := rfl
@[simp] theorem resetTick_inputs (s : State) : (resetTick s).inputs = s.inputs := rfl

@[simp] theorem tickIdle_cfg (s : State) : (tickIdle s).cfg = s.cfg := rfl
@[simp] theorem tickIdle_regs (s : State) : (tickIdle s).regs = (unitOfWork s.regs).regs := rfl
@[simp] theorem tickIdle_inputs (s : State) : (tickIdle s).inputs = s.inputs := rfl
@[simp] theorem tickRequest_cfg (s : State) (f : Regs s.cfg → Regs s.cfg) : (tickRequest s f).cfg = s.cfg := rfl
@[simp] theorem tickRequest_inputs (s : State) (f : Regs s.cfg → Regs s.cfg) :
    (tickRequest s f).inputs = s.inputs := rfl

end Sys2Proof.Machine
end

