-- ==== Sys2Proof/Laws/Ops.lean ====
section
/-! SUPPORT. What the shared operations do: writing a result that fits, counting down, and the operands and outputs built
on them. -/

namespace Sys2Proof.Machine

variable {c : Config}

/-- A register is 0 exactly when its value is. -/
theorem eq_zero_iff_toNat {w : Nat} {x : BitVec w} : x = 0#w ↔ x.toNat = 0 :=
  ⟨fun h => by simp [h], fun h => BitVec.eq_of_toNat_eq (by simpa using h)⟩

theorem ne_zero_iff_toNat {w : Nat} {x : BitVec w} : x ≠ 0#w ↔ 0 < x.toNat := by
  rw [ne_eq, eq_zero_iff_toNat]; omega

/-- A result that fits its register is written exactly (R158). -/
theorem narrow_of_lt {w n : Nat} (h : n < 2 ^ w) : narrow w n = BitVec.ofNat w n := if_pos h

theorem narrow_toNat {w n : Nat} (h : n < 2 ^ w) : (narrow w n).toNat = n := by
  rw [narrow_of_lt h, BitVec.toNat_ofNat, Nat.mod_eq_of_lt h]

theorem decrement_toNat {w : Nat} {b : BitVec w} (h : b ≠ 0#w) : (decrement b).toNat = b.toNat - 1 := by
  have hb : b.toNat ≠ 0 := fun e => h (BitVec.eq_of_toNat_eq (by simpa using e))
  have hw : 1 < 2 ^ w ∨ w = 0 := by
    rcases Nat.eq_zero_or_pos w with hw | hw
    · exact .inr hw
    · exact .inl (Nat.one_lt_two_pow (by omega))
  have hlt := b.isLt
  rcases hw with hw | rfl
  · have h1 : (1#w).toNat = 1 := (BitVec.toNat_ofNat 1 w).trans (Nat.mod_eq_of_lt hw)
    rw [decrement, if_neg h, BitVec.toNat_sub, h1]
    rw [show 2 ^ w - 1 + b.toNat = (b.toNat - 1) + 2 ^ w by omega, Nat.add_mod_right, Nat.mod_eq_of_lt (by omega)]
  · omega

theorem dcDigit_lt (r : Regs c) : dcDigit r < 10 := by
  unfold dcDigit
  split <;> omega

/-- A digit's byte is digit + 48, without a carry out of 8 bits (R77). -/
theorem digitByte_toNat {d : Nat} (h : d < 10) : (digitByte d).toNat = 48 + d := by
  unfold digitByte
  rw [BitVec.toNat_add, BitVec.toNat_ofNat, BitVec.toNat_ofNat]
  omega

theorem slotFree_iff {busy done : Bool} : slotFree busy done = true ↔ busy = false ∨ done = true := by
  cases busy <;> cases done <;> decide

/-- The sequencer runs exactly in the states that have a register-select level and a byte to send (R76, R77, R100). -/
theorem seqEn_iff (r : Regs c) :
    seqEn r = true ↔ r.busy = true ∧ (r.kind = .cmd ∨ r.kind = .data ∨ (r.kind = .number ∧ r.dcSt = .emit)) := by
  unfold seqEn
  cases r.busy <;> cases r.kind <;> cases r.dcSt <;> decide

end Sys2Proof.Machine
end

