-- ==== Sys2Proof/Laws/Units.lean ====
section
/-! SUPPORT. What the sequencer's and the converter's steps leave in each register, and when a byte ends. -/

namespace Sys2Proof.Machine

variable {c : Config}

@[simp] theorem sequencerStep_busy (rs : Bool) (b : Byte) (r : Regs c) : (sequencerStep rs b r).busy = r.busy := by
  unfold sequencerStep lineWrite setCounters; cases r.phase <;> rfl
@[simp] theorem sequencerStep_kind (rs : Bool) (b : Byte) (r : Regs c) : (sequencerStep rs b r).kind = r.kind := by
  unfold sequencerStep lineWrite setCounters; cases r.phase <;> rfl
@[simp] theorem sequencerStep_byteReg (rs : Bool) (b : Byte) (r : Regs c) : (sequencerStep rs b r).byteReg = r.byteReg := by
  unfold sequencerStep lineWrite setCounters; cases r.phase <;> rfl
@[simp] theorem sequencerStep_dcSt (rs : Bool) (b : Byte) (r : Regs c) : (sequencerStep rs b r).dcSt = r.dcSt := by
  unfold sequencerStep lineWrite setCounters; cases r.phase <;> rfl
@[simp] theorem sequencerStep_dcV (rs : Bool) (b : Byte) (r : Regs c) : (sequencerStep rs b r).dcV = r.dcV := by
  unfold sequencerStep lineWrite setCounters; cases r.phase <;> rfl
@[simp] theorem sequencerStep_dcRev (rs : Bool) (b : Byte) (r : Regs c) : (sequencerStep rs b r).dcRev = r.dcRev := by
  unfold sequencerStep lineWrite setCounters; cases r.phase <;> rfl
@[simp] theorem sequencerStep_dcTz (rs : Bool) (b : Byte) (r : Regs c) : (sequencerStep rs b r).dcTz = r.dcTz := by
  unfold sequencerStep lineWrite setCounters; cases r.phase <;> rfl

@[simp] theorem sequencerStep_phase (rs : Bool) (b : Byte) (r : Regs c) :
    (sequencerStep rs b r).phase = (advance c r.phase r.pass).phase := rfl

@[simp] theorem sequencerStep_pass (rs : Bool) (b : Byte) (r : Regs c) :
    (sequencerStep rs b r).pass = (advance c r.phase r.pass).pass := rfl

/-- The lines after a sequencer step: exactly the phase's line is written (R102). -/
theorem sequencerStep_lcdRs (rs : Bool) (b : Byte) (r : Regs c) :
    (sequencerStep rs b r).lcdRs = if r.phase = .setRs then rs else r.lcdRs := by
  unfold sequencerStep lineWrite setCounters; cases r.phase <;> rfl

theorem sequencerStep_lcdRw (rs : Bool) (b : Byte) (r : Regs c) :
    (sequencerStep rs b r).lcdRw = if r.phase = .setRw then false else r.lcdRw := by
  unfold sequencerStep lineWrite setCounters; cases r.phase <;> rfl

theorem sequencerStep_lcdE (rs : Bool) (b : Byte) (r : Regs c) :
    (sequencerStep rs b r).lcdE =
      if r.phase = .strobeHigh then true else if r.phase = .preStrobeLow ∨ r.phase = .strobeLow then false
      else r.lcdE := by
  unfold sequencerStep lineWrite setCounters; cases r.phase <;> rfl

theorem sequencerStep_lcdDb (rs : Bool) (b : Byte) (r : Regs c) :
    (sequencerStep rs b r).lcdDb = if r.phase = .presentData then sel c.ifWidth b r.pass else r.lcdDb := by
  unfold sequencerStep lineWrite setCounters; cases r.phase <;> rfl

/-- A byte ends in phase 5 of its only or second pass (R107). -/
theorem advance_last_iff (p : Phase) (q : Pass) :
    (advance c p q).last = true ↔ p = .strobeLow ∧ (c.ifWidth = .eight ∨ q = .second) := by
  unfold advance
  cases p <;> cases q <;> cases c.ifWidth <;> simp

/-- When a byte ends the counters are back at their start (R108). -/
theorem advance_of_last {p : Phase} {q : Pass} (h : (advance c p q).last = true) :
    (advance c p q).phase = .setRs ∧ (advance c p q).pass = .first := by
  revert h
  unfold advance
  cases p <;> cases q <;> cases c.ifWidth <;> simp

/-- A sequencer step always moves the phase. -/
theorem advance_phase_ne (p : Phase) (q : Pass) : (advance c p q).phase ≠ p := by
  unfold advance
  cases p <;> cases q <;> cases c.ifWidth <;> cases c.pass2Entry <;> simp [pass2Phase]

@[simp] theorem consumeDigit_busy (r : Regs c) : (consumeDigit r).busy = r.busy := by
  unfold consumeDigit; split <;> rfl
@[simp] theorem consumeDigit_kind (r : Regs c) : (consumeDigit r).kind = r.kind := by
  unfold consumeDigit; split <;> rfl
@[simp] theorem consumeDigit_byteReg (r : Regs c) : (consumeDigit r).byteReg = r.byteReg := by
  unfold consumeDigit; split <;> rfl
@[simp] theorem consumeDigit_phase (r : Regs c) : (consumeDigit r).phase = r.phase := by
  unfold consumeDigit; split <;> rfl
@[simp] theorem consumeDigit_pass (r : Regs c) : (consumeDigit r).pass = r.pass := by
  unfold consumeDigit; split <;> rfl
@[simp] theorem consumeDigit_dcSt (r : Regs c) : (consumeDigit r).dcSt = r.dcSt := by
  unfold consumeDigit; split <;> rfl
@[simp] theorem consumeDigit_dcV (r : Regs c) : (consumeDigit r).dcV = r.dcV := by
  unfold consumeDigit; split <;> rfl
@[simp] theorem consumeDigit_lcdRs (r : Regs c) : (consumeDigit r).lcdRs = r.lcdRs := by
  unfold consumeDigit; split <;> rfl
@[simp] theorem consumeDigit_lcdRw (r : Regs c) : (consumeDigit r).lcdRw = r.lcdRw := by
  unfold consumeDigit; split <;> rfl
@[simp] theorem consumeDigit_lcdE (r : Regs c) : (consumeDigit r).lcdE = r.lcdE := by
  unfold consumeDigit; split <;> rfl
@[simp] theorem consumeDigit_lcdDb (r : Regs c) : (consumeDigit r).lcdDb = r.lcdDb := by
  unfold consumeDigit; split <;> rfl

/-- The accumulator's last digit is dropped, while there is one (R156). -/
theorem consumeDigit_of_rev {r : Regs c} (h : r.dcRev ≠ 0#_) :
    (consumeDigit r).dcRev.toNat = r.dcRev.toNat / 10 ∧ (consumeDigit r).dcTz = r.dcTz := by
  unfold consumeDigit
  rw [if_neg h]
  exact ⟨narrow_toNat (lt_of_le_of_lt (Nat.div_le_self _ _) r.dcRev.isLt), rfl⟩

/-- Past the accumulator a zero is counted off (R156). -/
theorem consumeDigit_of_tz {r : Regs c} (h : r.dcRev = 0#_) (h' : r.dcTz ≠ 0#_) :
    (consumeDigit r).dcRev = 0#_ ∧ (consumeDigit r).dcTz.toNat = r.dcTz.toNat - 1 := by
  unfold consumeDigit
  rw [if_pos h]
  exact ⟨h, decrement_toNat h'⟩

theorem exhausted_iff {r : Regs c} : exhausted r = true ↔ r.dcRev = 0#_ ∧ r.dcTz = 0#_ := by
  simp [exhausted]

@[simp] theorem reversalStep_busy (r : Regs c) : (reversalStep r).busy = r.busy := rfl
@[simp] theorem reversalStep_kind (r : Regs c) : (reversalStep r).kind = r.kind := rfl
@[simp] theorem reversalStep_byteReg (r : Regs c) : (reversalStep r).byteReg = r.byteReg := rfl
@[simp] theorem reversalStep_phase (r : Regs c) : (reversalStep r).phase = r.phase := rfl
@[simp] theorem reversalStep_pass (r : Regs c) : (reversalStep r).pass = r.pass := rfl
@[simp] theorem reversalStep_lcdRs (r : Regs c) : (reversalStep r).lcdRs = r.lcdRs := rfl
@[simp] theorem reversalStep_lcdRw (r : Regs c) : (reversalStep r).lcdRw = r.lcdRw := rfl
@[simp] theorem reversalStep_lcdE (r : Regs c) : (reversalStep r).lcdE = r.lcdE := rfl
@[simp] theorem reversalStep_lcdDb (r : Regs c) : (reversalStep r).lcdDb = r.lcdDb := rfl

@[simp] theorem loadNumber_busy (v : BitVec c.numW) (r : Regs c) : (loadNumber v r).busy = r.busy := by
  unfold loadNumber; split <;> rfl
@[simp] theorem loadNumber_kind (v : BitVec c.numW) (r : Regs c) : (loadNumber v r).kind = r.kind := by
  unfold loadNumber; split <;> rfl
@[simp] theorem loadNumber_byteReg (v : BitVec c.numW) (r : Regs c) : (loadNumber v r).byteReg = r.byteReg := by
  unfold loadNumber; split <;> rfl
@[simp] theorem loadNumber_phase (v : BitVec c.numW) (r : Regs c) : (loadNumber v r).phase = r.phase := by
  unfold loadNumber; split <;> rfl
@[simp] theorem loadNumber_pass (v : BitVec c.numW) (r : Regs c) : (loadNumber v r).pass = r.pass := by
  unfold loadNumber; split <;> rfl
@[simp] theorem loadNumber_lcdRs (v : BitVec c.numW) (r : Regs c) : (loadNumber v r).lcdRs = r.lcdRs := by
  unfold loadNumber; split <;> rfl
@[simp] theorem loadNumber_lcdRw (v : BitVec c.numW) (r : Regs c) : (loadNumber v r).lcdRw = r.lcdRw := by
  unfold loadNumber; split <;> rfl
@[simp] theorem loadNumber_lcdE (v : BitVec c.numW) (r : Regs c) : (loadNumber v r).lcdE = r.lcdE := by
  unfold loadNumber; split <;> rfl
@[simp] theorem loadNumber_lcdDb (v : BitVec c.numW) (r : Regs c) : (loadNumber v r).lcdDb = r.lcdDb := by
  unfold loadNumber; split <;> rfl

/-- Loading 0 (R150). -/
theorem loadNumber_zero (r : Regs c) : loadNumber 0#_ r = loadConverter .emit 0#_ 0#_ (narrow c.tzW 1) r := if_pos rfl

/-- Loading any other value (R150). -/
theorem loadNumber_of_ne_zero {v : BitVec c.numW} (h : v ≠ 0#_) (r : Regs c) :
    loadNumber v r = loadConverter .rev v 0#_ 0#_ r := if_neg h

/-- The sequencer's step does not reach what a digit's consumption writes. -/
theorem consumeDigit_sequencerStep (rs : Bool) (b : Byte) (r : Regs c) :
    (consumeDigit (sequencerStep rs b r)).dcRev = (consumeDigit r).dcRev ∧
    (consumeDigit (sequencerStep rs b r)).dcTz = (consumeDigit r).dcTz := by
  unfold consumeDigit
  by_cases h : r.dcRev = 0#_ <;> simp [h]

end Sys2Proof.Machine
end

