-- ==== Sys2Proof/Laws/Digits.lean ====
section
/-! SUPPORT. The converter's steps as exact arithmetic inside their bounds, and the measures of Safety.lean over the steps
that change them. -/

namespace Sys2Proof.Machine

variable {c : Config}

theorem digits_of_pos {n : Nat} (h : 0 < n) : Nat.digits 10 n = n % 10 :: Nat.digits 10 (n / 10) :=
  Nat.digits_def' (by norm_num) h

theorem digits_length_le_dMax (v : BitVec c.numW) : (Nat.digits 10 v.toNat).length ≤ c.dMax :=
  (Nat.digits_length_le_iff (by norm_num) _).2 (c.lt_ten_pow_dMax v.isLt)

/-- While the value still has `k` digits to move, the accumulator and the zero counter have `D_MAX − k` places taken. -/
theorem reversal_bounds {r : Regs c} (hs : r.dcSt = .rev) (hd : (digitsLeft r).length ≤ c.dMax) :
    (Nat.digits 10 r.dcV.toNat).length ≤ c.dMax ∧
    r.dcRev.toNat < 10 ^ (c.dMax - (Nat.digits 10 r.dcV.toNat).length) ∧
    r.dcTz.toNat ≤ c.dMax - (Nat.digits 10 r.dcV.toNat).length := by
  unfold digitsLeft at hd
  rw [hs] at hd
  simp only [List.length_append, List.length_reverse, List.length_replicate] at hd
  refine ⟨by omega, ?_, by omega⟩
  exact lt_of_lt_of_le (Nat.lt_base_pow_length_digits (by norm_num)) (Nat.pow_le_pow_right (by norm_num) (by omega))

/-- Inside these bounds a reversal step's results fit their registers (R153, R158). -/
theorem reversalStep_toNat {r : Regs c} (hv : 0 < r.dcV.toNat) (hn : (Nat.digits 10 r.dcV.toNat).length ≤ c.dMax)
    (hr : r.dcRev.toNat < 10 ^ (c.dMax - (Nat.digits 10 r.dcV.toNat).length))
    (ht : r.dcTz.toNat ≤ c.dMax - (Nat.digits 10 r.dcV.toNat).length) :
    (reversalStep r).dcV.toNat = r.dcV.toNat / 10 ∧
    (reversalStep r).dcRev.toNat = r.dcRev.toNat * 10 + r.dcV.toNat % 10 ∧
    (reversalStep r).dcTz.toNat = r.dcTz.toNat + (if r.dcRev = 0#_ ∧ r.dcV.toNat % 10 = 0 then 1 else 0) := by
  have hlen : (Nat.digits 10 r.dcV.toNat).length = (Nat.digits 10 (r.dcV.toNat / 10)).length + 1 := by
    rw [digits_of_pos hv]; rfl
  have hrev : r.dcRev.toNat * 10 + r.dcV.toNat % 10 < 2 ^ c.accW := by
    have h1 : (c.dMax - (Nat.digits 10 r.dcV.toNat).length) + 1 ≤ c.dMax := by omega
    have h2 : 10 ^ (c.dMax - (Nat.digits 10 r.dcV.toNat).length + 1) ≤ 10 ^ c.dMax :=
      Nat.pow_le_pow_right (by norm_num) h1
    have h3 := c.ten_pow_dMax_le
    rw [pow_succ] at h2
    omega
  refine ⟨narrow_toNat (lt_of_le_of_lt (Nat.div_le_self _ _) r.dcV.isLt), narrow_toNat hrev, ?_⟩
  show BitVec.toNat (if r.dcRev = 0#_ ∧ r.dcV.toNat % 10 = 0 then narrow c.tzW (r.dcTz.toNat + 1) else r.dcTz) = _
  split
  · next h =>
    have h10 : 0 < r.dcV.toNat / 10 := by omega
    have : (Nat.digits 10 (r.dcV.toNat / 10)).length = (Nat.digits 10 (r.dcV.toNat / 10 / 10)).length + 1 := by
      rw [digits_of_pos h10]; rfl
    have := c.dMax_lt_tzW
    exact narrow_toNat (by omega)
  · rfl

/-- In EMIT the digit presented is the first of those left, and its consumption leaves the others (R155, R156). -/
theorem digitsLeft_of_emit {r : Regs c} (hs : r.dcSt = .emit) (h : r.dcRev ≠ 0#_ ∨ r.dcTz ≠ 0#_) :
    digitsLeft r = dcDigit r ::
      (Nat.digits 10 (consumeDigit r).dcRev.toNat ++ List.replicate (consumeDigit r).dcTz.toNat 0) := by
  unfold digitsLeft dcDigit
  rw [hs]
  by_cases h0 : r.dcRev = 0#_
  · have hz : r.dcTz ≠ 0#_ := by simpa [h0] using h
    obtain ⟨h1, h2⟩ := consumeDigit_of_tz h0 hz
    obtain ⟨m, hm⟩ : ∃ m, r.dcTz.toNat = m + 1 := ⟨r.dcTz.toNat - 1, by have := ne_zero_iff_toNat.1 hz; omega⟩
    rw [h1, h2, hm]; simp [h0, List.replicate_succ]
  · obtain ⟨h1, h2⟩ := consumeDigit_of_rev h0
    rw [h1, h2, if_neg h0]
    simp only
    rw [digits_of_pos (ne_zero_iff_toNat.1 h0)]
    rfl

/-- The converter is exhausted exactly when no digit is left (R157). -/
theorem exhausted_iff_no_digits {r : Regs c} :
    exhausted r = true ↔ Nat.digits 10 r.dcRev.toNat ++ List.replicate r.dcTz.toNat 0 = [] := by
  rw [exhausted_iff, eq_zero_iff_toNat, eq_zero_iff_toNat]
  simp [Nat.digits_eq_nil_iff_eq_zero]

/-- A byte at its start takes `P` ticks (R109). -/
theorem byteTicksLeft_start {r : Regs c} (hp : r.phase = .setRs) (hq : r.pass = .first) :
    byteTicksLeft r = c.byteTicks := by
  unfold byteTicksLeft Config.byteTicks
  simp only [hp, hq]
  cases c.ifWidth <;> cases c.pass2Entry <;> simp [Phase.num, Pass2Entry.num]

/-- One tick is left of a byte exactly in its final phase (R107). -/
theorem byteTicksLeft_last {r : Regs c} (h : c.ifWidth = .eight → r.pass = .first) :
    (advance c r.phase r.pass).last = true ↔ byteTicksLeft r = 1 := by
  revert h
  obtain ⟨w, n, hn, p2⟩ := c
  unfold byteTicksLeft advance
  simp only
  cases r.phase <;> cases r.pass <;> cases w <;> cases p2 <;> simp [Phase.num, Pass2Entry.num]

/-- Each sequencer step inside a byte takes one tick off it. -/
theorem byteTicksLeft_step {r : Regs c} (h : c.ifWidth = .eight → r.pass = .first) (rs : Bool) (b : Byte)
    (hl : (advance c r.phase r.pass).last = false) : byteTicksLeft (sequencerStep rs b r) + 1 = byteTicksLeft r := by
  revert h hl
  obtain ⟨w, n, hn, p2⟩ := c
  unfold byteTicksLeft
  simp only [sequencerStep_phase, sequencerStep_pass]
  cases r.phase <;> cases r.pass <;> cases w <;> cases p2 <;> simp [Phase.num, Pass2Entry.num, advance, pass2Phase]

end Sys2Proof.Machine
end

