-- ==== Sys2Proof/Laws/PerInstr.lean ====
section
/-! SUPPORT. Per request: the encoder writes the request's code into the op field (R70, R72). -/

namespace Sys2Proof.Laws.OpcodeField

/-- The op field of a request's word is its operation code. -/
def Statement (i : Instr) : Prop := ∀ n : Nat, opField (encode n i) = opcode i

theorem nop : Statement .nop := fun _ => opField_append _ _

theorem sendCmd (b : Byte) : Statement (.sendCmd b) := fun _ => opField_append _ _

theorem sendData (b : Byte) : Statement (.sendData b) := fun _ => opField_append _ _

theorem writeNumber (v : Nat) : Statement (.writeNumber v) := fun _ => opField_append _ _

end Sys2Proof.Laws.OpcodeField
end

