-- ==== Sys2Proof/Laws/Tick.lean ====
section
/-! SUPPORT. What one tick can do: the cases of the running request's unit of work, each with its answer, and the two
ticks built on it. Later proofs cite these and unfold none of the functions. -/

namespace Sys2Proof.Machine

variable {c : Config}

theorem unitOfWork_of_idle {r : Regs c} (h : r.busy = false) : unitOfWork r = ⟨r, false, false⟩ := by
  simp [unitOfWork, h]

theorem unitOfWork_of_rev {r : Regs c} (hb : r.busy = true) (hk : r.kind = .number) (hs : r.dcSt = .rev) :
    unitOfWork r = ⟨reversalStep r, false, false⟩ := by
  simp [unitOfWork, hb, hk, hs]

theorem unitOfWork_of_cmd {r : Regs c} (hb : r.busy = true) (hk : r.kind = .cmd) :
    unitOfWork r = sequencerWork false r.byteReg r := by
  simp [unitOfWork, hb, hk, rsOf, txByte]

theorem unitOfWork_of_data {r : Regs c} (hb : r.busy = true) (hk : r.kind = .data) :
    unitOfWork r = sequencerWork true r.byteReg r := by
  simp [unitOfWork, hb, hk, rsOf, txByte]

theorem unitOfWork_of_emit {r : Regs c} (hb : r.busy = true) (hk : r.kind = .number) (hs : r.dcSt = .emit) :
    unitOfWork r = sequencerWork true (digitByte (dcDigit r)) r := by
  simp [unitOfWork, hb, hk, hs, rsOf, txByte]

/-- The busy states without work (log 7): kind NONE, or NUMBER with an idle converter. -/
theorem unitOfWork_of_none {r : Regs c} (h : r.kind = .none ∨ r.kind = .number ∧ r.dcSt = .idle) :
    unitOfWork r = ⟨r, false, false⟩ := by
  rcases h with hk | ⟨hk, hs⟩ <;> simp [unitOfWork, rsOf, txByte, *]

/-- A sequencer tick inside a byte: one line write and the counters' advance, no completion. -/
theorem sequencerWork_of_not_last {r : Regs c} {rs : Bool} {b : Byte} (h : (advance c r.phase r.pass).last = false) :
    sequencerWork rs b r = ⟨sequencerStep rs b r, false, false⟩ := by
  simp [sequencerWork, h]

/-- The last tick of a SEND request's byte: the request completes (R138, R139). -/
theorem sequencerWork_of_send {r : Regs c} {rs : Bool} {b : Byte} (h : (advance c r.phase r.pass).last = true)
    (hk : r.kind = .cmd ∨ r.kind = .data) :
    sequencerWork rs b r = ⟨releaseSlot (sequencerStep rs b r), true, true⟩ := by
  rcases hk with hk | hk <;> simp [sequencerWork, h, hk, finishIf, doneNow]

/-- The last tick of a digit's byte: the digit is consumed, and the request completes if none is left (R156, R157). -/
theorem sequencerWork_of_number {r : Regs c} {rs : Bool} {b : Byte} (h : (advance c r.phase r.pass).last = true)
    (hk : r.kind = .number) :
    sequencerWork rs b r =
      if exhausted (consumeDigit (sequencerStep rs b r)) then
        ⟨releaseSlot (setDcSt .idle (consumeDigit (sequencerStep rs b r))), true, true⟩
      else ⟨consumeDigit (sequencerStep rs b r), true, false⟩ := by
  by_cases he : exhausted (consumeDigit (sequencerStep rs b r)) <;>
    simp [sequencerWork, h, hk, finishIf, doneNow, settleConverter, he]

/-- The cases of `unitOfWork`, by what the running request does in this tick. -/
inductive WorkCase (r : Regs c) : Work c → Prop where
  /-- nothing to do: idle, or a busy state without work -/
  | still (h : seqEn r = false) (h' : r.busy = true → ¬(r.kind = .number ∧ r.dcSt = .rev)) : WorkCase r ⟨r, false, false⟩
  /-- one reversal step -/
  | reversal (hb : r.busy = true) (hk : r.kind = .number) (hs : r.dcSt = .rev) : WorkCase r ⟨reversalStep r, false, false⟩
  /-- a phase inside a byte -/
  | phase (rs : Bool) (b : Byte) (hb : seqEn r = true) (hrs : rsOf r.kind = some rs) (htx : txByte r = some b)
      (hl : (advance c r.phase r.pass).last = false) : WorkCase r ⟨sequencerStep rs b r, false, false⟩
  /-- the last phase of a SEND request's byte -/
  | send (rs : Bool) (b : Byte) (hb : seqEn r = true) (hrs : rsOf r.kind = some rs) (htx : txByte r = some b)
      (hl : (advance c r.phase r.pass).last = true) (hk : r.kind = .cmd ∨ r.kind = .data) :
      WorkCase r ⟨releaseSlot (sequencerStep rs b r), true, true⟩
  /-- the last phase of a digit's byte, more digits to come -/
  | digit (rs : Bool) (b : Byte) (hb : seqEn r = true) (hrs : rsOf r.kind = some rs) (htx : txByte r = some b)
      (hl : (advance c r.phase r.pass).last = true) (hk : r.kind = .number) (hs : r.dcSt = .emit)
      (he : exhausted (consumeDigit (sequencerStep rs b r)) = false) :
      WorkCase r ⟨consumeDigit (sequencerStep rs b r), true, false⟩
  /-- the last phase of the last digit's byte -/
  | lastDigit (rs : Bool) (b : Byte) (hb : seqEn r = true) (hrs : rsOf r.kind = some rs) (htx : txByte r = some b)
      (hl : (advance c r.phase r.pass).last = true) (hk : r.kind = .number) (hs : r.dcSt = .emit)
      (he : exhausted (consumeDigit (sequencerStep rs b r)) = true) :
      WorkCase r ⟨releaseSlot (setDcSt .idle (consumeDigit (sequencerStep rs b r))), true, true⟩

/-- Everything the running request can do in a tick. -/
theorem unitOfWork_cases (r : Regs c) : WorkCase r (unitOfWork r) := by
  cases hb : r.busy
  · rw [unitOfWork_of_idle hb]
    exact .still (by simp [seqEn, hb]) (by simp [hb])
  · cases hk : r.kind
    · rw [unitOfWork_of_none (.inl hk)]
      exact .still (by simp [seqEn, hk]) (by simp [hk])
    · rw [unitOfWork_of_cmd hb hk]
      have he : seqEn r = true := by simp [seqEn, hb, hk]
      cases hl : (advance c r.phase r.pass).last
      · rw [sequencerWork_of_not_last hl]
        exact .phase _ _ he (by simp [hk, rsOf]) (by simp [txByte, hk]) hl
      · rw [sequencerWork_of_send hl (.inl hk)]
        exact .send _ _ he (by simp [hk, rsOf]) (by simp [txByte, hk]) hl (.inl hk)
    · rw [unitOfWork_of_data hb hk]
      have he : seqEn r = true := by simp [seqEn, hb, hk]
      cases hl : (advance c r.phase r.pass).last
      · rw [sequencerWork_of_not_last hl]
        exact .phase _ _ he (by simp [hk, rsOf]) (by simp [txByte, hk]) hl
      · rw [sequencerWork_of_send hl (.inr hk)]
        exact .send _ _ he (by simp [hk, rsOf]) (by simp [txByte, hk]) hl (.inr hk)
    · cases hs : r.dcSt
      · rw [unitOfWork_of_none (.inr ⟨hk, hs⟩)]
        exact .still (by simp [seqEn, hk, hs]) (by simp [hs])
      · rw [unitOfWork_of_rev hb hk hs]
        exact .reversal hb hk hs
      · rw [unitOfWork_of_emit hb hk hs]
        have he : seqEn r = true := by simp [seqEn, hb, hk, hs]
        cases hl : (advance c r.phase r.pass).last
        · rw [sequencerWork_of_not_last hl]
          exact .phase _ _ he (by simp [hk, rsOf]) (by simp [txByte, hk, hs]) hl
        · rw [sequencerWork_of_number hl hk]
          split
          · exact .lastDigit _ _ he (by simp [hk, rsOf]) (by simp [txByte, hk, hs]) hl hk hs ‹_›
          · next hx => exact .digit _ _ he (by simp [hk, rsOf]) (by simp [txByte, hk, hs]) hl hk hs (by simpa using hx)

/-- A tick in which the sequencer runs: the counters advance and the lines are the phase's (R102, R106). -/
theorem unitOfWork_of_seqEn {r : Regs c} (h : seqEn r = true) :
    ∃ rs b, rsOf r.kind = some rs ∧ txByte r = some b ∧
      (unitOfWork r).byteDone = (advance c r.phase r.pass).last ∧
      (unitOfWork r).regs.phase = (advance c r.phase r.pass).phase ∧
      (unitOfWork r).regs.pass = (advance c r.phase r.pass).pass ∧
      (unitOfWork r).regs.lcdRs = (sequencerStep rs b r).lcdRs ∧
      (unitOfWork r).regs.lcdRw = (sequencerStep rs b r).lcdRw ∧
      (unitOfWork r).regs.lcdE = (sequencerStep rs b r).lcdE ∧
      (unitOfWork r).regs.lcdDb = (sequencerStep rs b r).lcdDb := by
  have hw := unitOfWork_cases r
  generalize unitOfWork r = w at *
  cases hw with
  | still h' => simp [h'] at h
  | reversal hb hk hs => simp [seqEn_iff, hk, hs] at h
  | phase rs b hb hrs htx hl => exact ⟨rs, b, hrs, htx, hl.symm, rfl, rfl, rfl, rfl, rfl, rfl⟩
  | send rs b hb hrs htx hl hk => exact ⟨rs, b, hrs, htx, hl.symm, rfl, rfl, rfl, rfl, rfl, rfl⟩
  | digit rs b hb hrs htx hl hk hs he => exact ⟨rs, b, hrs, htx, hl.symm, by simp⟩
  | lastDigit rs b hb hrs htx hl hk hs he => exact ⟨rs, b, hrs, htx, hl.symm, by simp⟩

/-- A tick in which the sequencer does not run leaves all but the converter (R100). -/
theorem unitOfWork_of_not_seqEn {r : Regs c} (h : seqEn r = false) :
    (unitOfWork r).byteDone = false ∧ (unitOfWork r).done = false ∧ (unitOfWork r).regs.busy = r.busy ∧
    (unitOfWork r).regs.kind = r.kind ∧ (unitOfWork r).regs.phase = r.phase ∧ (unitOfWork r).regs.pass = r.pass ∧
    (unitOfWork r).regs.lcdRs = r.lcdRs ∧ (unitOfWork r).regs.lcdRw = r.lcdRw ∧
    (unitOfWork r).regs.lcdE = r.lcdE ∧ (unitOfWork r).regs.lcdDb = r.lcdDb := by
  have hw := unitOfWork_cases r
  generalize unitOfWork r = w at *
  cases hw <;> simp_all

/-- No work writes `byte_reg` (R22). -/
theorem unitOfWork_byteReg (r : Regs c) : (unitOfWork r).regs.byteReg = r.byteReg := by
  have hw := unitOfWork_cases r
  generalize unitOfWork r = w at *
  cases hw <;> simp

/-- What a completion leaves, and that a request was running (R138, R139). -/
theorem unitOfWork_done {r : Regs c} (h : (unitOfWork r).done = true) :
    (unitOfWork r).regs.busy = false ∧ (unitOfWork r).regs.kind = .none ∧ (unitOfWork r).regs.phase = .setRs ∧
    (unitOfWork r).regs.pass = .first ∧ (unitOfWork r).byteDone = true ∧ r.busy = true ∧ r.kind ≠ .none := by
  have hw := unitOfWork_cases r
  generalize unitOfWork r = w at *
  cases hw <;> simp_all [seqEn_iff, advance_of_last]
  rcases ‹_ ∨ _› with h | h <;> simp [h]

/-- The writes a request makes when it is accepted (R130, R134, R135, R137); a NOP makes none. -/
def acceptWrites (i : Instr) (r : Regs c) : Regs c :=
  match i with
  | .nop => r
  | .sendCmd b => loadByte b (occupySlot .cmd r)
  | .sendData b => loadByte b (occupySlot .data r)
  | .writeNumber v => loadNumber (BitVec.ofNat c.numW v) (occupySlot .number r)

/-- No acceptance writes a line. -/
theorem acceptWrites_lines (i : Instr) (r : Regs c) :
    (acceptWrites i r).lcdRs = r.lcdRs ∧ (acceptWrites i r).lcdRw = r.lcdRw ∧ (acceptWrites i r).lcdE = r.lcdE ∧
    (acceptWrites i r).lcdDb = r.lcdDb := by
  cases i <;> simp [acceptWrites]

/-- The one tick of every request (R181): the running request's work, then the request's writes if the slot is free. -/
theorem exec_eq (i : Instr) (s : State) :
    exec i s = .next ⟨s.cfg,
      if slotFree s.regs.busy (unitOfWork s.regs).done then acceptWrites i (unitOfWork s.regs).regs
      else (unitOfWork s.regs).regs,
      ⟨if i = .nop then .none else verdict (slotFree s.regs.busy (unitOfWork s.regs).done),
        (unitOfWork s.regs).byteDone, (unitOfWork s.regs).done⟩,
      s.inputs⟩ := by
  cases i <;> simp [exec, execNop, execSendCmd, execSendData, execWriteNumber, tickIdle, tickRequest, acceptWrites]

/-- The same, for registers and outputs taken out of the next state. -/
theorem exec_next_iff {i : Instr} {s : State} {r : Regs s.cfg} {o : Outputs} :
    exec i s = .next ⟨s.cfg, r, o, s.inputs⟩ ↔
      r = (if slotFree s.regs.busy (unitOfWork s.regs).done then acceptWrites i (unitOfWork s.regs).regs
        else (unitOfWork s.regs).regs) ∧
      o = ⟨if i = .nop then .none else verdict (slotFree s.regs.busy (unitOfWork s.regs).done),
        (unitOfWork s.regs).byteDone, (unitOfWork s.regs).done⟩ := by
  rw [exec_eq]
  simp only [Host.Outcome.next.injEq, State.mk.injEq, heq_eq_eq, true_and, and_true]
  exact ⟨fun h => ⟨h.1.symm, h.2.symm⟩, fun h => ⟨h.1.symm, h.2.symm⟩⟩

/-- The NOP tick is the running request's work alone. -/
theorem execNop_next_iff {s : State} {r : Regs s.cfg} {o : Outputs} :
    exec .nop s = .next ⟨s.cfg, r, o, s.inputs⟩ ↔
      r = (unitOfWork s.regs).regs ∧ o = ⟨.none, (unitOfWork s.regs).byteDone, (unitOfWork s.regs).done⟩ := by
  rw [exec_next_iff]
  simp [acceptWrites]

/-- One tick: a reset, or the request the word decodes to (R181, R206). -/
theorem step_of_rst {s : State} (h : (nextInput s).rst = true) : step s = .next (resetTick (dropInput s)) := if_pos h

theorem step_of_request {s : State} (h : (nextInput s).rst = false) :
    step s = exec (decode (nextInput s).word) (dropInput s) := if_neg (by simp [h])

/-- A tick with `rst = 0`, written out (R181). -/
theorem step_eq {s : State} (h : (nextInput s).rst = false) :
    step s = .next ⟨s.cfg,
      if slotFree s.regs.busy (unitOfWork s.regs).done then
        acceptWrites (decode (nextInput s).word) (unitOfWork s.regs).regs
      else (unitOfWork s.regs).regs,
      ⟨if decode (nextInput s).word = .nop then .none else verdict (slotFree s.regs.busy (unitOfWork s.regs).done),
        (unitOfWork s.regs).byteDone, (unitOfWork s.regs).done⟩,
      s.inputs.tail⟩ :=
  (step_of_request h).trans (exec_eq _ (dropInput s))

end Sys2Proof.Machine
end

