-- ==== Sys2Proof/Laws/Run.lean ====
section
/-! SUPPORT. One tick of a run, for the run itself and for what is read off it. -/

namespace Sys2Proof.Machine

theorem run_zero (s : State) : Host.Core.run Sys2Proof.core 0 s = .next s := rfl

theorem run_succ {s t : State} (h : step s = .next t) (k : Nat) :
    Host.Core.run Sys2Proof.core (k + 1) s = Host.Core.run Sys2Proof.core k t := by
  have h' : Sys2Proof.core.step s = .next t := h
  simp only [Host.Core.run, h']

theorem sentBytes_succ {s t : State} (h : step s = .next t) (k : Nat) :
    sentBytes (k + 1) s = (if t.out.byteDone then (txByte s.regs).toList else []) ++ sentBytes k t := by
  simp only [sentBytes, h]

theorem latches_succ {s t : State} (h : step s = .next t) (k : Nat) :
    latches (k + 1) s = (latchOf s t).toList ++ latches k t := by
  simp only [latches, h]

theorem settle_succ {s t : State} (hb : s.regs.busy = true) (h : step s = .next t) (k : Nat) :
    settle (k + 1) s = settle k t := by
  simp only [settle, hb, h, if_true]

theorem settleTicks_succ {s t : State} (hb : s.regs.busy = true) (h : step s = .next t) (k : Nat) :
    settleTicks (k + 1) s = settleTicks k t + 1 := by
  simp only [settleTicks, hb, h, if_true]

theorem settleTicks_of_idle {s : State} (hb : s.regs.busy = false) (k : Nat) : settleTicks k s = 0 := by
  cases k <;> simp [settleTicks, hb]

theorem settleTicks_le (k : Nat) : ∀ s : State, settleTicks k s ≤ k := by
  induction k with
  | zero => exact fun _ => Nat.le_refl 0
  | succ k ih =>
    intro s
    unfold settleTicks
    split
    · split
      · next t _ => exact Nat.succ_le_succ (ih t)
      · exact Nat.zero_le _
      · exact Nat.zero_le _
    · exact Nat.zero_le _

theorem trace_succ {s t : State} (h : step s = .next t) (k : Nat) : trace (k + 1) s = ⟨t.cfg, ports t⟩ :: trace k t := by
  simp only [trace, h]

theorem settle_of_idle {s : State} (hb : s.regs.busy = false) (k : Nat) : settle k s = .next s := by
  cases k <;> simp [settle, hb]

end Sys2Proof.Machine
end

