-- ==== Sys2Proof/Tests/Slice0.lean ====
section
/-! SUPPORT. The model's own tests: values taken from the spec's vectors and encodings, and, for every statement with
hypotheses, a state and operands that meet them (`test_hyps_<statement>`). -/

namespace Sys2Proof.Tests

open Sys2Proof Sys2Proof.Machine

/-! ### Well-formedness and encodings -/

/-- R71: a value of `2^NUM_W` does not fit WRITE_NUMBER's operand; every other check passes everything. -/
theorem test_wf : Instr.wf 32 (.writeNumber (2 ^ 32)) = false ∧ Instr.wf 32 (.writeNumber (2 ^ 32 - 1)) = true ∧
    Instr.wf 16 (.writeNumber 70000) = false ∧ Instr.wf 8 .nop = true ∧ Instr.wf 8 (.sendCmd 0xFF#8) = true ∧
    Instr.wf 8 (.sendData 0xFF#8) = true := by decide

/-- V1, V2, V10, V15, V16, V30, V37: the words of 95_test_vectors.md. -/
theorem test_decode : decodeTableWord 40 0x000000000 = some .nop ∧ decodeTableWord 40 0x0FFFFFFFF = some .nop ∧
    decodeTableWord 40 0x100000028 = some (.sendCmd 0x28#8) ∧ decodeTableWord 40 0x1FFFFFF28 = some (.sendCmd 0x28#8) ∧
    decodeTableWord 40 0x200000041 = some (.sendData 0x41#8) ∧ decodeTableWord 40 0x300000000 = some (.writeNumber 0) ∧
    decodeTableWord 40 0x3FFFFFFFF = some (.writeNumber 4294967295) := by decide

/-- R89: the words of 95_test_vectors.md are what the encoder gives, and R87's example. -/
theorem test_encode : encode 32 .nop = 0x000000000#34 ∧ encode 32 (.sendCmd 0x28#8) = 0x100000028#34 ∧
    encode 32 (.sendData 0x41#8) = 0x200000041#34 ∧ encode 32 (.writeNumber 1000000000) = 0x33B9ACA00#34 := by decide

/-- V44, V45: the words at `NUM_W` 16 and 8. -/
theorem test_decode_narrow : decode (n := 16) 0x3FFFF#18 = .writeNumber 65535 ∧
    decode (n := 8) 0x3FF#10 = .writeNumber 255 ∧ decode (n := 8) 0x1FF#10 = .sendCmd 0xFF#8 := by decide

/-- R70: a number of more than `NUM_W + 2` bits is no request word. -/
theorem test_decode_too_wide : decodeTableWord 40 0x400000000 = none := by decide

/-! ### The assembler (R87, R88) -/

/-- R87's example line, a quoted character, a comment; a byte above 255 is no operand. -/
theorem test_assemble :
    assembleLine 32 ['S', 'E', 'N', 'D', '_', 'C', 'M', 'D', ' ', '0', 'x', '2', '8'] = some (.one (.sendCmd 0x28#8)) ∧
    assembleLine 32 ['S', 'E', 'N', 'D', '_', 'D', 'A', 'T', 'A', ' ', '\'', 'A', '\'', ' ', ';', 'c'] =
      some (.one (.sendData 0x41#8)) ∧
    assembleLine 32 ['S', 'E', 'N', 'D', '_', 'C', 'M', 'D', ' ', '2', '5', '6'] = none ∧
    assembleLine 32 ['S', 'E', 'N', 'D', '_', 'S', 'T', 'R', 'I', 'N', 'G', ' ', '"', 'A', 'B', '"'] =
      some (.sendString [0x41#8, 0x42#8]) ∧
    assembleLine 8 ['W', 'R', 'I', 'T', 'E', '_', 'N', 'U', 'M', 'B', 'E', 'R', ' ', '2', '5', '6'] = none := by decide

/-- V10's run: ten ticks, of which the first shows ACCEPTED and busy, the seventh the first strobe's end, and the last
the second strobe's end with `byte_done`, `done` and an idle slot. An idle block with no program shows no tick. -/
theorem test_program_trace :
    (programTrace State.reset [.sendCmd 0x28#8]).map (fun x =>
      (x.2.status, x.2.busy, x.2.lcdE, x.2.byteDone, x.2.done)) =
      (1#2, true, false, false, false) :: List.replicate 4 (0#2, true, false, false, false) ++
      [(0#2, true, true, false, false), (0#2, true, false, false, false), (0#2, true, false, false, false),
        (0#2, true, true, false, false), (0#2, false, false, true, true)] ∧
    programTrace State.reset [] = [] := by decide

/-- R88 at `P = 9`: SEND_CMD_W takes one request and eight NOPs; WRITE_NUMBER_W 0 the same. -/
theorem test_expand : (Line.sendCmdW 0x01#8).expand Config.default = .sendCmd 0x01#8 :: List.replicate 8 .nop ∧
    (Line.writeNumberW 0).expand Config.default = .writeNumber 0 :: List.replicate 8 .nop ∧
    ((Line.writeNumberW 105).expand Config.default).length = 30 := by decide

/-- W6 and W3's shape: a string is one SEND_DATA a character; a cursor address is the opcode with line base + column. -/
theorem test_source_requests :
    (SourceRequest.writeString [0x41#8, 0x42#8]).lines ⟨1, 2, 3, 4, 0x80, 0, 0x40, 31, 1⟩ = [.sendString [0x41#8, 0x42#8]] ∧
    (SourceRequest.setCursor 1 5).lines ⟨1, 2, 3, 4, 0x80, 0, 0x40, 31, 1⟩ = [.sendCmdW 0xC5#8] := by decide

/-! ### One tick, on states built by these helpers -/

/-- 8 lines, 32-bit numbers. -/
def eightLines : Config := ⟨.eight, 32, by decide, .three⟩

/-- 4 lines, second pass from phase 0. -/
def twelveTicks : Config := ⟨.four, 32, by decide, .zero⟩

/-- A request of kind `k` at a phase and pass, its byte 0x28, the enable line as R105 has it; converter as given. -/
def running (c : Config) (k : Kind) (p : Phase) (q : Pass) (st : DcStep) (v rev tz : Nat) : State :=
  { State.resetAt c with
    regs := { Regs.reset c with
      busy := true, kind := k, byteReg := 0x28#8, phase := p, pass := q, dcSt := st, dcV := BitVec.ofNat _ v
      dcRev := BitVec.ofNat _ rev, dcTz := BitVec.ofNat _ tz, lcdE := p == .strobeLow } }

/-- A SEND_CMD at a phase and pass with 4 lines. -/
def sending (p : Phase) (q : Pass) : State := running Config.default .cmd p q .idle 0 0 0

/-- A WRITE_NUMBER in its reversal. -/
def reversing (v rev tz : Nat) : State := running Config.default .number .setRs .first .rev v rev tz

/-- A WRITE_NUMBER sending a digit. -/
def emitting (p : Phase) (q : Pass) (rev tz : Nat) : State := running Config.default .number p q .emit 0 rev tz

/-- What an outcome's registers and outputs satisfy. -/
def after (o : Host.Outcome State Fault Refusal) (p : State → Bool) : Bool :=
  match o with
  | .next t => p t
  | .fault _ => false
  | .refused _ => false

/-- V1: a NOP from reset changes nothing. -/
theorem test_nop_idle : after (step State.reset) (fun t => decide (t = State.reset)) = true := by decide

/-- R112, tick 4: a NOP leaves the running byte's phase 3 to put the high nibble on the lines. -/
theorem test_nop_busy :
    after (exec .nop (sending .presentData .first)) (fun t => t.regs.lcdDb.toNat == 2 && t.regs.phase == .strobeHigh) =
      true := by decide

/-- V10, tick 0. -/
theorem test_send_cmd_accepted :
    after (step (State.reset.withFetchWord 40 0x100000028)) (fun t =>
      t.out.status == .accepted && t.regs.kind == .cmd && t.regs.byteReg.toNat == 0x28 && t.regs.busy &&
      !t.regs.lcdRs) = true := by decide

/-- V12, V13: the data lines of the two passes, and the second pass from phase 0. -/
theorem test_send_cmd_second_pass :
    after (exec .nop (sending .presentData .second)) (fun t => t.regs.lcdDb.toNat == 8) = true ∧
    after (exec .nop (running twelveTicks .cmd .strobeLow .first .idle 0 0 0)) (fun t =>
      t.regs.phase == .setRs && t.regs.pass == .second && !t.out.byteDone) = true := by decide

/-- V21, tick 9: a SEND_DATA presented in the completing tick is accepted. -/
theorem test_send_data_in_completing_tick :
    after (exec (.sendData 0x41#8) (sending .strobeLow .second)) (fun t =>
      t.out.status == .accepted && t.out.done && t.out.byteDone && t.regs.busy && t.regs.kind == .data &&
      t.regs.byteReg.toNat == 0x41 && t.regs.phase == .setRs && !t.regs.lcdE) = true := by decide

/-- V20, tick 3: a SEND_DATA presented inside a byte is turned away and leaves no trace. -/
theorem test_send_data_rejected :
    after (exec (.sendData 0x41#8) (sending .preStrobeLow .first)) (fun t =>
      t.out.status == .notReady && t.regs.kind == .cmd && t.regs.byteReg.toNat == 0x28 && t.regs.phase == .presentData) =
      true := by decide

/-- V38, tick 10: the last reversal step of 3999999999 gives the largest accumulator value, all 34 bits of it. -/
theorem test_write_number_reversal :
    after (exec .nop (reversing 3 999999999 0)) (fun t =>
      t.regs.dcRev.toNat == 9999999993 && t.regs.dcV.toNat == 0 && t.regs.dcSt == .emit) = true := by decide

/-- V30, ticks 0 and 9; V34, tick 21: zero loads one zero to send, the last of which completes. -/
theorem test_write_number_zero :
    after (step (State.reset.withFetchWord 40 0x300000000)) (fun t =>
      t.regs.dcSt == .emit && t.regs.dcTz.toNat == 1 && t.regs.dcRev.toNat == 0 && t.out.status == .accepted) = true ∧
    after (exec .nop (emitting .strobeLow .second 0 1)) (fun t =>
      t.out.done && t.regs.dcSt == .idle && !t.regs.busy) = true ∧
    after (exec .nop (emitting .strobeLow .second 0 2)) (fun t =>
      t.out.byteDone && !t.out.done && t.regs.dcTz.toNat == 1 && t.regs.busy) = true := by decide

/-- V24, tick 5: a reset abandons the running request. -/
theorem test_reset :
    after (step { sending .strobeHigh .first with inputs := [⟨true, 0x200000041#34⟩] })
      (fun t => decide (t = State.reset)) = true := by decide

/-- R9's table at `NUM_W` 32, and `P` of the three timings. -/
theorem test_constants : Config.default.dMax = 10 ∧ Config.default.accW = 34 ∧ Config.default.tzW = 4 ∧
    Config.default.byteTicks = 9 ∧ eightLines.byteTicks = 6 ∧ twelveTicks.byteTicks = 12 := by decide

/-! ### States with the invariant, for the statements that ask for it -/

theorem test_inv_reset : StepInvariant State.reset.regs := by
  constructor
  · constructor <;> decide
  all_goals decide

theorem test_inv_sending : StepInvariant (sending .strobeHigh .first).regs := by
  constructor
  · constructor <;> decide
  all_goals decide

theorem test_inv_sending_strobe : StepInvariant (sending .strobeLow .first).regs := by
  constructor
  · constructor <;> decide
  all_goals decide

theorem test_inv_sending_last : StepInvariant (sending .strobeLow .second).regs := by
  constructor
  · constructor <;> decide
  all_goals decide

/-- The last reversal step of 3999999999, where `dc_rev` is about to take its largest value (R158). -/
theorem test_inv_reversing : StepInvariant (reversing 3 999999999 0).regs := by
  constructor
  · constructor <;> decide
  all_goals decide

/-- The last but one reversal step of 100, which counts a second zero. -/
theorem test_inv_reversing_zero : StepInvariant (reversing 10 0 1).regs := by
  constructor
  · constructor <;> decide
  all_goals decide

theorem test_inv_emitting : StepInvariant (emitting .strobeLow .second 501 0).regs := by
  constructor
  · constructor <;> decide
  all_goals decide

theorem test_inv_emitting_last : StepInvariant (emitting .strobeLow .second 0 1).regs := by
  constructor
  · constructor <;> decide
  all_goals decide

theorem test_inv_emitting_data : StepInvariant (emitting .presentData .first 0 2).regs := by
  constructor
  · constructor <;> decide
  all_goals decide

/-! ### For every statement with hypotheses, something that meets them -/

/-- The form in which the statements name the registers and outputs a tick leaves. -/
abbrev Ticks (i : Instr) (s : State) (r : Regs s.cfg) (o : Outputs) : Prop := exec i s = .next ⟨s.cfg, r, o, s.inputs⟩

/-- Every request and state meets that form: all that CompletionIgnoresTheRequest, StatusCodeOfEveryRequest and
PortsShowTheEndOfTheTick ask. -/
theorem test_hyps_next (i : Instr) (s : State) : ∃ r o, Ticks i s r o := ⟨_, _, exec_eq i s⟩

/-- A reset presented together with a request, to a running block. -/
theorem test_hyps_ResetTickClearsEverything :
    (nextInput { sending .strobeHigh .first with inputs := [⟨true, 0x200000041#34⟩] }).rst = true := rfl

/-- The least `NUM_W`, and its largest operands; EncodeOfDecodeClearsIgnoredBits asks `8 ≤ NUM_W` alone. -/
theorem test_hyps_DecodeOfEncodeIsIdentity : 8 ≤ 8 ∧ Instr.wf 8 .nop = true ∧ Instr.wf 8 (.sendCmd 0xFF#8) = true ∧
    Instr.wf 8 (.sendData 0xFF#8) = true ∧ Instr.wf 8 (.writeNumber 255) = true := by decide

/-- Each operation code with an operand of ones; 8 ≤ `NUM_W` holds of 8. -/
theorem test_hyps_OperationCodeSelectsTheRequest :
    opField (n := 8) 0x0FF#10 = 0b00#2 ∧ opField (n := 8) 0x1FF#10 = 0b01#2 ∧
    opField (n := 8) 0x2FF#10 = 0b10#2 ∧ opField (n := 8) 0x3FF#10 = 0b11#2 := by decide

/-- The largest word of each row. -/
theorem test_hyps_TableRowsSelectTheirRequests :
    0x3FFFFFFFF < 2 ^ 34 ∧ 0x0FFFFFFFF &&& 0x300000000 = 0x000000000 ∧ 0x1FFFFFFFF &&& 0x300000000 = 0x100000000 ∧
    0x2FFFFFFFF &&& 0x300000000 = 0x200000000 ∧ 0x3FFFFFFFF &&& 0x300000000 = 0x300000000 ∧ 4294967295 < 2 ^ 32 := by
  decide

theorem test_hyps_StepRunsThePresentedRequest :
    (State.reset.withFetchWord 40 0x100000028).inputs = ⟨false, 0x100000028#34⟩ :: [] ∧ State.reset.inputs = [] := by
  decide

theorem test_hyps_StepKeepsStepInvariant : ∃ t, StepInvariant (reversing 3 999999999 0).regs ∧
    step (reversing 3 999999999 0) = .next t := ⟨_, test_inv_reversing, step_eq rfl⟩

/-- Two ticks after a request is presented to the reset block. -/
theorem test_hyps_ReachableStatesSatisfyTheInvariants : ∃ t, Host.Core.run Sys2Proof.core 2
    { State.resetAt Config.default with inputs := [⟨false, 0x100000028#34⟩] } = .next t := ⟨_, rfl⟩

/-- Idle; busy; and busy in the tick that completes. -/
theorem test_hyps_NopWritesNothing : State.reset.regs.busy = false ∧ (sending .strobeLow .second).regs.busy = true ∧
    ∃ r o, Ticks .nop (sending .strobeLow .second) r o ∧ o.done = true :=
  ⟨rfl, rfl, _, _, rfl, rfl⟩

theorem test_hyps_IdleBlockAcceptsSendCmd : State.reset.regs.busy = false := rfl

theorem test_hyps_IdleBlockAcceptsSendData : (State.resetAt eightLines).regs.busy = false := rfl

/-- Both ends of the operand's range. -/
theorem test_hyps_IdleBlockAcceptsWriteNumber : State.reset.regs.busy = false ∧ 0 < 2 ^ State.reset.cfg.numW ∧
    4294967295 < 2 ^ State.reset.cfg.numW := by decide

/-- Idle, busy in the completing tick, and busy before it, so that both verdicts arise. -/
theorem test_hyps_AcceptedExactlyWhenFree : Instr.writeNumber 255 ≠ .nop ∧
    Instr.wf State.reset.cfg.numW (.writeNumber 255) = true ∧ State.reset.regs.busy = false ∧
    (∃ r o, Ticks .nop (sending .strobeLow .second) r o ∧ o.done = true) ∧
    (∃ r o, Ticks .nop (sending .strobeLow .first) r o ∧ o.done = false) :=
  ⟨by decide, by decide, rfl, ⟨_, _, rfl, rfl⟩, ⟨_, _, rfl, rfl⟩⟩

theorem test_hyps_RejectedRequestWritesNothing : Instr.sendData 0x41#8 ≠ .nop ∧
    ∃ n o, Ticks .nop (sending .strobeLow .first) n o ∧ (sending .strobeLow .first).regs.busy = true ∧
      o.done = false := ⟨by decide, _, _, rfl, rfl, rfl⟩

/-- A NOP in the first reversal tick's place: no SEND, no sequencer step, no acceptance, no completion. Idle: no
converter step either. -/
theorem test_hyps_FrameOfATick : seqEn (reversing 10 0 1).regs = false ∧ State.reset.regs.busy = false ∧
    (∃ r o, Ticks .nop (reversing 10 0 1) r o ∧ o.done = false ∧ o.status ≠ .accepted) ∧
    (∃ r o, Ticks .nop State.reset r o ∧ o.done = false ∧ o.status ≠ .accepted) :=
  ⟨by decide, rfl, ⟨_, _, rfl, rfl, by decide⟩, ⟨_, _, rfl, rfl, by decide⟩⟩

/-- V15's two words; two equal WRITE_NUMBER words. -/
theorem test_hyps_IgnoredBitsDoNotMatter : (0b01#2 ≠ 0b11#2 ∧ 0b01#2 ≠ 0b00#2 ∧
    (0xFFFFFF28#32).toNat % 256 = (0x00000028#32).toNat % 256) ∧ (0b11#2 = 0b11#2 ∧ 0xFFFFFFFF#32 = 0xFFFFFFFF#32) := by
  decide

/-- The sequencer runs for a CMD, a DATA and a NUMBER in EMIT, and not in a reversal tick. -/
theorem test_hyps_SequencerRunsExactlyWhenEnabled : seqEn (sending .setRs .first).regs = true ∧
    seqEn (running eightLines .data .strobeLow .first .idle 0 0 0).regs = true ∧
    seqEn (emitting .strobeLow .second 501 0).regs = true ∧ seqEn (reversing 10 0 1).regs = false := by decide

theorem test_hyps_PhaseWritesOneLine : ∃ r o, Ticks .nop (sending .presentData .second) r o ∧
    seqEn (sending .presentData .second).regs = true ∧ txByte (sending .presentData .second).regs = some 0x28#8 :=
  ⟨_, _, exec_eq _ _, by decide, by decide⟩

/-- Phase 3 in 8-bit mode, in both passes in 4-bit mode, and another phase. -/
theorem test_hyps_DataLinesCarryTheSelectedNibble :
    (seqEn (running eightLines .data .presentData .first .idle 0 0 0).regs = true ∧ eightLines.ifWidth = .eight) ∧
    (seqEn (emitting .presentData .first 0 2).regs = true ∧ Config.default.ifWidth = .four) ∧
    seqEn (emitting .presentData .second 501 0).regs = true ∧ seqEn (sending .strobeLow .second).regs = true := by decide

theorem test_hyps_ByteIsConstantInsideAByte : ∃ r o, Ticks (.sendData 0xFF#8) (emitting .strobeLow .first 501 0) r o ∧
    seqEn (emitting .strobeLow .first 501 0).regs = true ∧ o.byteDone = false :=
  ⟨_, _, rfl, by decide, rfl⟩

/-- Below phase 5; phase 5 of a first pass; phase 5 of a second. -/
theorem test_hyps_CountersAdvance : (seqEn (sending .strobeHigh .first).regs = true ∧ Phase.strobeHigh.num < 5) ∧
    (seqEn (sending .strobeLow .first).regs = true ∧ ¬Phase.strobeLow.num < 5) ∧
    seqEn (sending .strobeLow .second).regs = true := by decide

theorem test_hyps_ByteDoneMarksTheFinalPhase : ∃ r o, Ticks (.sendCmd 0x01#8) (sending .strobeLow .second) r o ∧
    o.byteDone = true := ⟨_, _, rfl, rfl⟩

/-- The tick that lowers the line and the tick that raises it. -/
theorem test_hyps_LinesStandStillAroundTheStrobe :
    (StepInvariant (sending .strobeLow .first).regs ∧ (sending .strobeLow .first).regs.lcdE = true) ∧
    (StepInvariant (sending .strobeHigh .first).regs ∧
      ∃ r o, Ticks .nop (sending .strobeHigh .first) r o ∧ r.lcdE = true) :=
  ⟨⟨test_inv_sending_strobe, rfl⟩, test_inv_sending, _, _, rfl, rfl⟩

theorem test_hyps_DataLinesDriveTheirPins : (4 : Fin 8).val = (0 : Fin 8).val + 4 ∧ (7 : Fin 8).val = (3 : Fin 8).val + 4 ∧
    (3 : Fin 8).val < 4 := by decide

theorem test_hyps_SendCompletesWithItsByte : (sending .strobeLow .second).regs.kind = .cmd ∧
    (running eightLines .data .strobeLow .first .idle 0 0 0).regs.kind = .data := ⟨rfl, rfl⟩

/-- With a NOP and with a request in the completing tick. -/
theorem test_hyps_TerminalProtocol : StepInvariant (sending .strobeLow .second).regs ∧
    (∃ r o, Ticks .nop (sending .strobeLow .second) r o ∧ o.done = true) ∧
    (∃ r o, Ticks (.sendData 0x41#8) (sending .strobeLow .second) r o ∧ o.done = true) :=
  ⟨test_inv_sending_last, ⟨_, _, rfl, rfl⟩, ⟨_, _, rfl, rfl⟩⟩

/-- Several ticks left, and the last one. -/
theorem test_hyps_RunningRequestCannotBeStopped :
    (StepInvariant (sending .strobeHigh .first).regs ∧ (sending .strobeHigh .first).regs.busy = true ∧
      1 < ticksLeft (sending .strobeHigh .first).regs) ∧
    (StepInvariant (sending .strobeLow .second).regs ∧ ticksLeft (sending .strobeLow .second).regs = 1) :=
  ⟨⟨test_inv_sending, rfl, by decide⟩, test_inv_sending_last, by decide⟩

/-- Each request accepted, the idle NOP, and the three timings. -/
theorem test_hyps_AcceptedRequestDurations : StepInvariant State.reset.regs ∧
    (∃ r o, Ticks (.sendCmd 0x28#8) State.reset r o ∧ o.status = .accepted) ∧
    (∃ r o, Ticks (.sendData 0x28#8) State.reset r o ∧ o.status = .accepted) ∧
    (∃ r o, Ticks (.writeNumber 4294967295) State.reset r o ∧ o.status = .accepted ∧
      Instr.wf 32 (.writeNumber 4294967295) = true) ∧
    State.reset.regs.busy = false ∧ eightLines.ifWidth = .eight ∧ Config.default.pass2Entry = .three ∧
    twelveTicks.pass2Entry = .zero :=
  ⟨test_inv_reset, ⟨_, _, rfl, rfl⟩, ⟨_, _, rfl, rfl⟩, ⟨_, _, rfl, rfl, by decide⟩, rfl, rfl, rfl, rfl⟩

/-- One tick before the last of two, and the last tick. -/
theorem test_hyps_ExactlyOneCompletion : StepInvariant (sending .strobeLow .second).regs ∧
    (sending .strobeLow .second).regs.busy = true ∧ NoReset 1 (sending .strobeLow .second) ∧
    ticksLeft (sending .strobeLow .second).regs = 1 ∧ ticksLeft (sending .strobeHigh .first).regs = 5 ∧
    ∃ t, Host.Core.run Sys2Proof.core 1 (sending .strobeLow .second) = .next t ∧ t.out.done = true :=
  ⟨test_inv_sending_last, rfl, by unfold NoReset; decide, by decide, by decide, _, rfl, rfl⟩

theorem test_hyps_DerivedConstants : Config.default.numW = 32 ∧ (⟨.eight, 16, by decide, .three⟩ : Config).numW = 16 ∧
    (⟨.four, 8, by decide, .three⟩ : Config).numW = 8 ∧ 10 ^ Config.default.dMax - 1 < 2 ^ 34 ∧
    Config.default.dMax - 1 < 2 ^ 4 := by decide

theorem test_hyps_ReversalStepTakesOneDigit : StepInvariant (reversing 3 999999999 0).regs ∧
    (reversing 3 999999999 0).regs.busy = true ∧ (reversing 3 999999999 0).regs.kind = .number ∧
    (reversing 3 999999999 0).regs.dcSt = .rev := ⟨test_inv_reversing, rfl, rfl, rfl⟩

/-- R162's value. -/
theorem test_hyps_ReversalLeavesTheReversedNumeral : 0 < 100 ∧ 100 < 2 ^ (reversing 100 0 0).cfg.numW ∧
    (reversing 100 0 0).regs.busy = true ∧ (reversing 100 0 0).regs.kind = .number ∧
    (reversing 100 0 0).regs.dcSt = .rev ∧ (reversing 100 0 0).regs.dcV.toNat = 100 ∧
    (reversing 100 0 0).regs.dcRev = 0#_ ∧ (reversing 100 0 0).regs.dcTz = 0#_ ∧
    NoReset (Nat.digits 10 100).length (reversing 100 0 0) ∧
    ∃ t, Host.Core.run Sys2Proof.core (Nat.digits 10 100).length (reversing 100 0 0) = .next t :=
  ⟨by decide, by decide, rfl, rfl, rfl, by decide, rfl, rfl, by unfold NoReset; decide,
    _, rfl⟩

/-- A nonzero accumulator, an exhausted one, and a tick inside a byte. -/
theorem test_hyps_DigitConsumedWithItsByte :
    (StepInvariant (emitting .strobeLow .second 501 0).regs ∧ (emitting .strobeLow .second 501 0).regs.dcRev ≠ 0#_ ∧
      ∃ r o, Ticks .nop (emitting .strobeLow .second 501 0) r o ∧ o.byteDone = true) ∧
    (StepInvariant (emitting .strobeLow .second 0 1).regs ∧ (emitting .strobeLow .second 0 1).regs.dcRev = 0#_ ∧
      ∃ r o, Ticks .nop (emitting .strobeLow .second 0 1) r o ∧ o.byteDone = true) ∧
    (StepInvariant (emitting .presentData .first 0 2).regs ∧
      ∃ r o, Ticks .nop (emitting .presentData .first 0 2) r o ∧ o.byteDone = false) :=
  ⟨⟨test_inv_emitting, by decide, _, _, rfl, rfl⟩, ⟨test_inv_emitting_last, rfl, _, _, rfl, rfl⟩,
    test_inv_emitting_data, _, _, rfl, rfl⟩

/-- A number that goes on and one that completes. -/
theorem test_hyps_ExhaustedConverterCompletes :
    (StepInvariant (emitting .strobeLow .second 501 0).regs ∧
      ∃ r o, Ticks .nop (emitting .strobeLow .second 501 0) r o ∧ o.byteDone = true ∧ o.done = false) ∧
    (StepInvariant (emitting .strobeLow .second 0 1).regs ∧
      ∃ r o, Ticks .nop (emitting .strobeLow .second 0 1) r o ∧ o.byteDone = true ∧ o.done = true) :=
  ⟨⟨test_inv_emitting, _, _, rfl, rfl, rfl⟩, test_inv_emitting_last, _, _, rfl, rfl, rfl⟩

/-- A reversal step that counts a zero, and a last zero about to be consumed. -/
theorem test_hyps_ConverterNeverOverflows :
    (StepInvariant (reversing 10 0 1).regs ∧ (reversing 10 0 1).regs.dcSt = .rev ∧
      (reversing 10 0 1).regs.dcRev = 0#_ ∧ (reversing 10 0 1).regs.dcV.toNat % 10 = 0) ∧
    (StepInvariant (emitting .strobeLow .second 0 1).regs ∧ (emitting .strobeLow .second 0 1).regs.dcSt = .emit ∧
      (emitting .strobeLow .second 0 1).regs.dcRev = 0#_ ∧
      txByte (emitting .strobeLow .second 0 1).regs = some 0x30#8) :=
  ⟨⟨test_inv_reversing_zero, rfl, rfl, by decide⟩, test_inv_emitting_last, rfl, rfl, by decide⟩

/-- A WRITE_NUMBER accepted from two different states. -/
theorem test_hyps_NumbersDoNotInteract :
    (∃ r o, Ticks (.writeNumber 0) State.reset r o ∧ o.status = .accepted) ∧
    (∃ r o, Ticks (.writeNumber 0) (emitting .strobeLow .second 0 1) r o ∧ o.status = .accepted) :=
  ⟨⟨_, _, rfl, rfl⟩, _, _, rfl, rfl⟩

/-- The largest value, accepted; a reversal tick; and a digit's last tick. -/
theorem test_hyps_DigitsLeaveMostSignificantFirst :
    (4294967295 < 2 ^ State.reset.cfg.numW ∧
      ∃ r o, Ticks (.writeNumber 4294967295) State.reset r o ∧ o.status = .accepted) ∧
    (StepInvariant (reversing 10 0 1).regs ∧ (reversing 10 0 1).regs.kind = .number ∧
      ∃ r o, Ticks .nop (reversing 10 0 1) r o ∧ o.byteDone = false) ∧
    (StepInvariant (emitting .strobeLow .second 501 0).regs ∧
      ∃ r o, Ticks .nop (emitting .strobeLow .second 501 0) r o ∧ o.byteDone = true) :=
  ⟨⟨by decide, _, _, rfl, rfl⟩, ⟨test_inv_reversing_zero, rfl, _, _, rfl, rfl⟩, test_inv_emitting, _, _, rfl, rfl⟩

/-- V10 and V17's words presented to the reset block. -/
theorem test_hyps_SentByteReachesTheDisplay : StepInvariant (State.reset.withFetchWord 40 0x100000028).regs ∧
    (State.reset.withFetchWord 40 0x100000028).regs.busy = false ∧
    NoReset (1 + Config.default.byteTicks) (State.reset.withFetchWord 40 0x100000028) ∧
    decode (nextInput (State.reset.withFetchWord 40 0x100000028)).word = .sendCmd 0x28#8 ∧
    decode (nextInput (State.reset.withFetchWord 40 0x200000041)).word = .sendData 0x41#8 :=
  ⟨test_inv_reset, rfl, by unfold NoReset; decide, by decide, by decide⟩

/-- V37's word presented to the reset block. -/
theorem test_hyps_NumberReachesTheDisplay : StepInvariant (State.reset.withFetchWord 40 0x3FFFFFFFF).regs ∧
    (State.reset.withFetchWord 40 0x3FFFFFFFF).regs.busy = false ∧
    decode (nextInput (State.reset.withFetchWord 40 0x3FFFFFFFF)).word = .writeNumber 4294967295 ∧
    NoReset (1 + numberTicks Config.default 4294967295) (State.reset.withFetchWord 40 0x3FFFFFFFF) :=
  ⟨test_inv_reset, rfl, by decide, fun x hx => by
    rw [List.mem_singleton.1 (List.mem_of_mem_take hx)]⟩

/-- A NOP of ones presented to an idle block, and to one with a request in its reversal. -/
theorem test_hyps_NopsBringTheBlockToRest :
    (OnlyNops (State.reset.withFetchWord 40 0x0FFFFFFFF) ∧ Quiescent (State.reset.withFetchWord 40 0x0FFFFFFFF)) ∧
    (StepInvariant (reversing 3 999999999 0).regs ∧ OnlyNops (reversing 3 999999999 0)) :=
  ⟨⟨by unfold OnlyNops; decide, rfl⟩, test_inv_reversing, by unfold OnlyNops; decide⟩

/-- A block with a request running, as a program may find it. -/
theorem test_hyps_EveryProgramRunComesToRest : StepInvariant (reversing 3 999999999 0).regs := test_inv_reversing

/-- The same; its clauses' ranges are not empty: a SEND_CMD from reset takes one tick and nine NOPs (V10). -/
theorem test_hyps_ProgramTraceIsEveryTickOfTheRun : StepInvariant (reversing 3 999999999 0).regs ∧
    StepInvariant State.reset.regs ∧ [Instr.sendCmd 0x28#8].length = 1 ∧
    runTicks State.reset [.sendCmd 0x28#8] = 10 := ⟨test_inv_reversing, test_inv_reset, rfl, by decide⟩

theorem test_hyps_StringIsSentInOrder : StepInvariant State.reset.regs ∧ State.reset.regs.busy = false :=
  ⟨test_inv_reset, rfl⟩

end Sys2Proof.Tests
end

section
/-! The decoder on a word put together from its fields, the operands' round trips, and the settlement of O4. -/

namespace Sys2Proof

@[simp] theorem decode_append_nop {n : Nat} (arg : BitVec n) : decode (n := n) (0b00#2 ++ arg) = .nop := by
  simp [decode]

@[simp] theorem decode_append_sendCmd {n : Nat} (arg : BitVec n) :
    decode (n := n) (0b01#2 ++ arg) = .sendCmd (byteOperand arg) := by
  simp [decode]

@[simp] theorem decode_append_sendData {n : Nat} (arg : BitVec n) :
    decode (n := n) (0b10#2 ++ arg) = .sendData (byteOperand arg) := by
  simp [decode]

@[simp] theorem decode_append_writeNumber {n : Nat} (arg : BitVec n) :
    decode (n := n) (0b11#2 ++ arg) = .writeNumber (valueOperand arg) := by
  simp [decode]

/-- An operand field of at least 8 bits holds a byte whole: this is where R6's `NUM_W ≥ 8` is needed. -/
theorem byteOperand_setWidth {n : Nat} (hn : 8 ≤ n) (b : Byte) : byteOperand (b.setWidth n) = b := by
  rw [byteOperand, BitVec.setWidth_setWidth_of_le _ hn, BitVec.setWidth_eq]

/-- An operand field holds whole every value R71 allows. -/
theorem valueOperand_ofNat {n v : Nat} (hv : v < 2 ^ n) : valueOperand (BitVec.ofNat n v) = v := by
  rw [valueOperand, BitVec.toNat_ofNat, Nat.mod_eq_of_lt hv]

theorem decode_encode {n : Nat} {i : Instr} (hn : 8 ≤ n) (hi : i.wf n = true) : decode (encode n i) = i := by
  cases i with
  | nop => exact decode_append_nop _
  | sendCmd b => exact (decode_append_sendCmd _).trans (congrArg Instr.sendCmd (byteOperand_setWidth hn b))
  | sendData b => exact (decode_append_sendData _).trans (congrArg Instr.sendData (byteOperand_setWidth hn b))
  | writeNumber v =>
    have hv : v < 2 ^ n := of_decide_eq_true hi
    exact (decode_append_writeNumber _).trans (congrArg Instr.writeNumber (valueOperand_ofNat hv))

/-- Settles O4: per request, its code selects its own row of the decoder and its operand survives the operand field. -/
theorem decodeOfEncodeIsIdentity : Obligations.DecodeOfEncodeIsIdentity :=
  fun _ _ hn hi => decode_encode hn hi

end Sys2Proof
end

section
/-! The derived constants of R9 as functions of `NUM_W` and `IF_WIDTH`, and the settlement of O37. -/

namespace Sys2Proof

theorem Config.byteTicks_eq (c : Config) :
    c.byteTicks = if c.ifWidth = .eight then 6 else 12 - c.pass2Entry.num := by
  unfold Config.byteTicks
  cases c.ifWidth <;> rfl

/-- `NUM_W` alone fixes the three constants of the converter. -/
theorem Config.constants_of_numW {c : Config} {n d a t : Nat} (hn : c.numW = n)
    (hd : numDigitsFuel n (2 ^ n - 1) = d) (ha : bitLength (10 ^ d - 1) = a) (ht : bitLength (d - 1) = t) :
    c.dMax = d ∧ c.accW = a ∧ c.tzW = t := by
  subst hn hd ha ht
  exact ⟨rfl, rfl, rfl⟩

/-- Settles O37: the digit count is the numeral's length and `bitLength` is the least width; the table's values are
computed from `NUM_W`. -/
theorem derivedConstants : Obligations.DerivedConstants := by
  refine ⟨fun c => ?_, fun c h => ?_, fun c h => ?_, fun c h => ?_⟩
  · exact ⟨c.dMax_eq, lt_two_pow_bitLength _, fun _ => bitLength_le, c.dMax_lt_tzW, fun _ => bitLength_le,
      c.byteTicks_eq⟩
  · exact Config.constants_of_numW h (by decide) (by decide) (by decide)
  · exact Config.constants_of_numW h (by decide) (by decide) (by decide)
  · exact Config.constants_of_numW h (by decide) (by decide) (by decide)

end Sys2Proof
end

section
/-! The step invariant in three parts: the slot's, the lines' and the converter's. Each kind of work in a tick moves the
registers of one or two parts and leaves the others' (R181). -/

namespace Sys2Proof.Machine

variable {c : Config}

/-- R40 items 1, 2, 4 and 12, and item 5's counters: how the slot, the counters and the converter's step go together. -/
structure SlotInvariant (busy : Bool) (k : Kind) (p : Phase) (q : Pass) (st : DcStep) : Prop where
  busy_iff : busy = false ↔ k = .none
  idle_counters : busy = false → p = .setRs ∧ q = .first
  number_iff : k = .number ↔ st ≠ .idle
  reversal_counters : st = .rev → p = .setRs ∧ q = .first

/-- R40 items 7, 8 and 10, and R105: the counters and the lines the sequencer drives. -/
structure LineInvariant (c : Config) (p : Phase) (q : Pass) (rw e : Bool) : Prop where
  eight_lines : c.ifWidth = .eight → q = .first
  second_pass : q = .second → c.pass2Entry.num ≤ p.num
  write_line : rw = false
  strobe : e = true ↔ p = .strobeLow

/-- R40 items 3, 5, 6 and 11, and R158's count of digits: the converter's registers. -/
structure ConverterInvariant (r : Regs c) : Prop where
  idle : r.dcSt = .idle → r.dcV = 0#_ ∧ r.dcRev = 0#_ ∧ r.dcTz = 0#_
  rev : r.dcSt = .rev → r.dcV ≠ 0#_
  emit : r.dcSt = .emit → r.dcV = 0#_ ∧ (r.dcRev ≠ 0#_ ∨ r.dcTz ≠ 0#_)
  zeros : r.dcTz.toNat ≤ c.dMax - 1
  digits : (digitsLeft r).length ≤ c.dMax

/-- The digits left depend on the converter's registers alone. -/
theorem digitsLeft_congr {r r' : Regs c} (hst : r'.dcSt = r.dcSt) (hv : r'.dcV = r.dcV) (hrev : r'.dcRev = r.dcRev)
    (htz : r'.dcTz = r.dcTz) : digitsLeft r' = digitsLeft r := by
  unfold digitsLeft
  rw [hst, hv, hrev, htz]

/-- An accumulator with at most `D_MAX` digits is below `10 ^ D_MAX` (R158). -/
theorem ConverterInvariant.dcRev_lt {r : Regs c} (h : ConverterInvariant r) : r.dcRev.toNat < 10 ^ c.dMax := by
  have hlen : (Nat.digits 10 r.dcRev.toNat).length ≤ c.dMax := by
    have hd := h.digits
    unfold digitsLeft at hd
    cases hs : r.dcSt with
    | idle => simp [(h.idle hs).2.1]
    | rev => simp [hs] at hd; omega
    | emit => simp [hs] at hd; omega
  exact (Nat.digits_length_le_iff (by norm_num) _).1 hlen

/-- What every tick keeps is the three parts together. -/
theorem stepInvariant_iff {r : Regs c} :
    StepInvariant r ↔ SlotInvariant r.busy r.kind r.phase r.pass r.dcSt ∧
      LineInvariant c r.phase r.pass r.lcdRw r.lcdE ∧ ConverterInvariant r := by
  constructor
  · intro h
    refine ⟨⟨h.busy_iff, fun hb => ?_, ⟨fun hk => ?_, fun hs => ?_⟩, fun hs => (h.rev hs).2⟩,
      ⟨h.eight_lines, h.second_pass, h.write_line, h.strobe⟩,
      ⟨h.idle_converter, fun hs => (h.rev hs).1, h.emit, h.bounds.2, h.digits⟩⟩
    · obtain ⟨hp, hq, -⟩ := h.idle_counters hb
      exact ⟨hp, hq⟩
    · rcases h.number hk with hs | hs <;> simp [hs]
    · exact not_imp_comm.1 h.converter_of_number hs
  · rintro ⟨hs, hl, hc⟩
    have hidle : r.kind ≠ .number → r.dcSt = .idle := fun hk => not_not.1 (mt hs.number_iff.2 hk)
    refine ⟨⟨hs.busy_iff, fun hb => ?_, hc.idle, hidle, fun h => ⟨hc.rev h, hs.reversal_counters h⟩, hc.emit,
      hl.eight_lines, hl.second_pass, ⟨?_, ?_⟩, hl.write_line, ⟨hc.dcRev_lt, hc.zeros⟩, fun hk => ?_⟩, hc.digits,
      hl.strobe⟩
    · obtain ⟨hp, hq⟩ := hs.idle_counters hb
      exact ⟨hp, hq, hidle (by simp [hs.busy_iff.1 hb])⟩
    · cases r.phase <;> decide
    · cases r.dcSt <;> decide
    · have := hs.number_iff.1 hk
      cases h : r.dcSt <;> simp_all

/-! ### The slot's part -/

/-- The slot at rest (R139, R221). -/
theorem SlotInvariant.at_rest : SlotInvariant false .none .setRs .first .idle := by
  constructor <;> decide

/-- The slot after an acceptance: busy, the counters at their start, the converter loaded for a number only (R130). -/
theorem SlotInvariant.of_accepted {k : Kind} {st : DcStep} (hk : k ≠ .none) (hst : k = .number ↔ st ≠ .idle) :
    SlotInvariant true k .setRs .first st :=
  ⟨by simp [hk], nofun, hst, fun _ => ⟨rfl, rfl⟩⟩

/-- While the sequencer runs, the counters may stand anywhere. -/
theorem SlotInvariant.of_seqEn {r : Regs c} (h : seqEn r = true)
    (hs : SlotInvariant r.busy r.kind r.phase r.pass r.dcSt) (p : Phase) (q : Pass) :
    SlotInvariant r.busy r.kind p q r.dcSt := by
  obtain ⟨hb, hrun⟩ := (seqEn_iff r).1 h
  refine ⟨hs.busy_iff, fun hb' => by simp [hb] at hb', hs.number_iff, fun hrev => ?_⟩
  have hk := hs.number_iff.2 (by simp [hrev])
  simp [hk, hrev] at hrun

/-! ### The lines' part -/

/-- A sequencer step keeps the lines' part: the enable line rises in phase 4 and falls in phase 5, and the second pass
starts at its entry (R103, R105, R106). -/
theorem LineInvariant.phase_step {r : Regs c} (h : LineInvariant c r.phase r.pass r.lcdRw r.lcdE) (rs : Bool) (b : Byte) :
    LineInvariant c (sequencerStep rs b r).phase (sequencerStep rs b r).pass (sequencerStep rs b r).lcdRw
      (sequencerStep rs b r).lcdE := by
  obtain ⟨h8, h2, hrw, he⟩ := h
  rw [sequencerStep_phase, sequencerStep_pass, sequencerStep_lcdRw, sequencerStep_lcdE, hrw]
  constructor
  · intro hw
    unfold advance
    cases r.phase <;> simp [hw, h8 hw]
  · revert h2
    unfold advance
    cases r.phase <;> cases r.pass <;> cases c.ifWidth <;> cases c.pass2Entry <;>
      simp [pass2Phase, Phase.num, Pass2Entry.num]
  · simp
  · revert he
    unfold advance
    cases r.phase <;> cases r.pass <;> cases c.ifWidth <;> cases c.pass2Entry <;> simp [pass2Phase]

/-! ### The converter's part -/

/-- The converter's part depends on the converter's registers alone. -/
theorem ConverterInvariant.congr {r r' : Regs c} (h : ConverterInvariant r) (hst : r'.dcSt = r.dcSt) (hv : r'.dcV = r.dcV)
    (hrev : r'.dcRev = r.dcRev) (htz : r'.dcTz = r.dcTz) : ConverterInvariant r' := by
  obtain ⟨h1, h2, h3, h4, h5⟩ := h
  rw [← digitsLeft_congr hst hv hrev htz] at h5
  constructor <;> simpa only [hst, hv, hrev, htz]

/-- A sequencer step leaves the converter as it is. -/
theorem ConverterInvariant.phase_step {r : Regs c} (h : ConverterInvariant r) (rs : Bool) (b : Byte) :
    ConverterInvariant (sequencerStep rs b r) :=
  h.congr (by simp) (by simp) (by simp) (by simp)

/-- A converter at rest, its registers 0 (R221). -/
theorem ConverterInvariant.of_idle {r : Regs c} (hs : r.dcSt = .idle)
    (h : r.dcV = 0#_ ∧ r.dcRev = 0#_ ∧ r.dcTz = 0#_) : ConverterInvariant r :=
  ⟨fun _ => h, by simp [hs], by simp [hs], by simp [h], by simp [digitsLeft, hs]⟩

/-- Outside IDLE the digits left are the value's, the accumulator's from its last on, and the counted zeros. -/
theorem digitsLeft_of_ne_idle {r : Regs c} (hs : r.dcSt ≠ .idle) (h : r.dcSt = .emit → r.dcV = 0#_) :
    digitsLeft r =
      (Nat.digits 10 r.dcV.toNat).reverse ++ (Nat.digits 10 r.dcRev.toNat ++ List.replicate r.dcTz.toNat 0) := by
  unfold digitsLeft
  cases hst : r.dcSt with
  | idle => exact absurd hst hs
  | rev => simp
  | emit => simp [h hst]

/-- A digit put below the accumulator is a digit put before those it holds, an accumulator of 0 counting it as a zero
(R153). -/
theorem digits_accumulate {d : Nat} (hd : d < 10) (a z : Nat) :
    Nat.digits 10 (a * 10 + d) ++ List.replicate (z + if a = 0 ∧ d = 0 then 1 else 0) 0 =
      d :: (Nat.digits 10 a ++ List.replicate z 0) := by
  by_cases h : a = 0 ∧ d = 0
  · simp [h, List.replicate_succ]
  · rw [if_neg h, show a * 10 + d = d + 10 * a by omega, Nat.digits_add 10 (by norm_num) d a hd (by omega)]
    rfl

/-- The reversal ends with the value's last digit (R153). -/
theorem reversalStep_dcSt (r : Regs c) :
    (reversalStep r).dcSt = if r.dcV.toNat / 10 = 0 then .emit else r.dcSt := rfl

/-- A reversal step moves a digit and sends none: the digits left stay the same (R153, R154). -/
theorem digitsLeft_reversalStep {r : Regs c} (h : ConverterInvariant r) (hs : r.dcSt = .rev) :
    digitsLeft (reversalStep r) = digitsLeft r := by
  have hv := ne_zero_iff_toNat.1 (h.rev hs)
  obtain ⟨hn, hr, ht⟩ := reversal_bounds hs h.digits
  obtain ⟨hv', hr', ht'⟩ := reversalStep_toNat hv hn hr ht
  have hst := reversalStep_dcSt r
  rw [hs] at hst
  have hne : (reversalStep r).dcSt ≠ .idle := by
    rw [hst]; split <;> decide
  have hemit : (reversalStep r).dcSt = .emit → (reversalStep r).dcV = 0#_ := by
    rw [hst, eq_zero_iff_toNat, hv']; split <;> simp [*]
  rw [digitsLeft_of_ne_idle (r := r) (by simp [hs]) (by simp [hs]), digitsLeft_of_ne_idle hne hemit, hv', hr', ht',
    digits_of_pos hv]
  simp only [eq_zero_iff_toNat]
  rw [digits_accumulate (Nat.mod_lt _ (by norm_num))]
  simp

/-- A reversal step keeps the converter's part: the value's last digit ends the reversal with a digit other than 0 to send
(R153, R158). -/
theorem ConverterInvariant.reversal {r : Regs c} (h : ConverterInvariant r) (hs : r.dcSt = .rev) :
    ConverterInvariant (reversalStep r) := by
  have hv := ne_zero_iff_toNat.1 (h.rev hs)
  obtain ⟨hn, hr, ht⟩ := reversal_bounds hs h.digits
  obtain ⟨hv', hr', ht'⟩ := reversalStep_toNat hv hn hr ht
  have hst := reversalStep_dcSt r
  rw [hs] at hst
  have hdigits := digitsLeft_reversalStep h hs ▸ h.digits
  have hlen := congrArg List.length (digits_of_pos hv)
  by_cases hq : r.dcV.toNat / 10 = 0
  · have hd : r.dcV.toNat % 10 ≠ 0 := by omega
    rw [if_pos hq] at hst
    refine ⟨by simp [hst], by simp [hst], fun _ => ⟨?_, .inl ?_⟩, ?_, hdigits⟩
    · rw [eq_zero_iff_toNat, hv', hq]
    · rw [ne_zero_iff_toNat, hr']; omega
    · rw [ht', if_neg (fun hz => hd hz.2)]; exact h.zeros
  · have hmore := congrArg List.length (digits_of_pos (Nat.pos_of_ne_zero hq))
    rw [if_neg hq] at hst
    refine ⟨by simp [hst], fun _ => ?_, by simp [hst], ?_, hdigits⟩
    · rw [ne_zero_iff_toNat, hv']; omega
    · simp only [List.length_cons] at hlen hmore
      rw [ht']
      split <;> omega

/-- In EMIT a digit's consumption takes the first of the digits left (R155, R156). -/
theorem digitsLeft_consumeDigit {r : Regs c} (h : ConverterInvariant r) (hs : r.dcSt = .emit) :
    digitsLeft (consumeDigit r) = (digitsLeft r).tail := by
  rw [digitsLeft_of_emit hs (h.emit hs).2, digitsLeft_of_ne_idle (by simp [hs]) (by simp [h.emit hs])]
  simp [h.emit hs]

/-- A digit's consumption keeps the converter's part while a digit is left (R156, R157). -/
theorem ConverterInvariant.consumption {r : Regs c} (h : ConverterInvariant r) (hs : r.dcSt = .emit)
    (he : exhausted (consumeDigit r) = false) : ConverterInvariant (consumeDigit r) := by
  obtain ⟨hv, hmore⟩ := h.emit hs
  refine ⟨by simp [hs], by simp [hs], fun _ => ⟨by simp [hv], ?_⟩, ?_, ?_⟩
  · simpa [exhausted, imp_iff_not_or] using he
  · have hz := h.zeros
    by_cases h0 : r.dcRev = 0#_
    · rw [(consumeDigit_of_tz h0 (by simpa [h0] using hmore)).2]; omega
    · rw [(consumeDigit_of_rev h0).2]; exact hz
  · rw [digitsLeft_consumeDigit h hs, List.length_tail]
    have := h.digits
    omega

/-- The last digit's consumption leaves the converter at 0 in every register, ready for IDLE (R157). -/
theorem ConverterInvariant.exhaustion {r : Regs c} (h : ConverterInvariant r) (hs : r.dcSt = .emit)
    (he : exhausted (consumeDigit r) = true) : ConverterInvariant (setDcSt .idle (consumeDigit r)) :=
  .of_idle rfl ⟨by simp [h.emit hs], exhausted_iff.1 he⟩

@[simp] theorem loadNumber_dcSt (v : BitVec c.numW) (r : Regs c) :
    (loadNumber v r).dcSt = if v = 0#_ then .emit else .rev := by
  unfold loadNumber; split <;> rfl

/-- Every load of the converter starts inside its bounds: the number's own digits are left, or the one zero (R150). -/
theorem ConverterInvariant.load (v : BitVec c.numW) (r : Regs c) : ConverterInvariant (loadNumber v r) := by
  by_cases hv : v = 0#_
  · subst hv
    rw [loadNumber_zero]
    have h1 : (narrow c.tzW 1).toNat = 1 := narrow_toNat c.one_lt_tzW
    have hd := c.three_le_dMax
    refine ⟨nofun, nofun, fun _ => ⟨rfl, .inr ?_⟩, ?_, ?_⟩
    · simp [ne_zero_iff_toNat, h1]
    · simp only [loadConverter_dcTz, h1]; omega
    · simp [digitsLeft, h1]; omega
  · rw [loadNumber_of_ne_zero hv]
    refine ⟨nofun, fun _ => hv, nofun, by simp, ?_⟩
    simpa [digitsLeft] using digits_length_le_dMax v

/-! ### The tick -/

/-- The invariant of every tick holds at reset. -/
theorem reset_stepInvariant (c : Config) : StepInvariant (Regs.reset c) :=
  stepInvariant_iff.2 ⟨.at_rest, ⟨fun _ => rfl, nofun, rfl, by simp⟩, .of_idle rfl ⟨rfl, rfl, rfl⟩⟩

/-- The running request's work keeps the invariant. -/
theorem unitOfWork_stepInvariant {r : Regs c} (h : StepInvariant r) : StepInvariant (unitOfWork r).regs := by
  obtain ⟨hs, hl, hc⟩ := stepInvariant_iff.1 h
  have hw := unitOfWork_cases r
  generalize unitOfWork r = w at *
  rw [stepInvariant_iff]
  cases hw with
  | still => exact ⟨hs, hl, hc⟩
  | reversal hb hk hst =>
    refine ⟨⟨hs.busy_iff, hs.idle_counters, ?_, fun _ => hs.reversal_counters hst⟩, hl, hc.reversal hst⟩
    have hne : (reversalStep r).dcSt ≠ .idle := by
      rw [reversalStep_dcSt, hst]; split <;> decide
    simp only [reversalStep_kind, hk, ne_eq, hne, not_false_eq_true]
  | phase rs b he =>
    refine ⟨?_, hl.phase_step rs b, hc.phase_step rs b⟩
    simpa using hs.of_seqEn he _ _
  | send rs b _ _ _ hlast hk =>
    have hst : r.dcSt = .idle := h.converter_of_number (by rcases hk with hk | hk <;> simp [hk])
    refine ⟨?_, hl.phase_step rs b, (hc.phase_step rs b).congr rfl rfl rfl rfl⟩
    simpa [advance_of_last hlast, hst] using SlotInvariant.at_rest
  | digit rs b he _ _ _ _ hst hx =>
    refine ⟨?_, ?_, (hc.phase_step rs b).consumption (by simpa using hst) hx⟩
    · simpa using hs.of_seqEn he _ _
    · simpa using hl.phase_step rs b
  | lastDigit rs b _ _ _ hlast _ hst hx =>
    refine ⟨?_, ?_, ((hc.phase_step rs b).exhaustion (by simpa using hst) hx).congr rfl rfl rfl rfl⟩
    · simpa [advance_of_last hlast] using SlotInvariant.at_rest
    · simpa using hl.phase_step rs b

/-- An acceptance by a free slot keeps the invariant. -/
theorem acceptWrites_stepInvariant {r : Regs c} (h : StepInvariant r) (hb : r.busy = false) (i : Instr) :
    StepInvariant (acceptWrites i r) := by
  obtain ⟨hp, hq, hst⟩ := h.idle_counters hb
  obtain ⟨-, hl, hc⟩ := stepInvariant_iff.1 h
  rw [hp, hq] at hl
  cases i with
  | nop => exact h
  | sendCmd b =>
    have hs := SlotInvariant.of_accepted (k := .cmd) (st := r.dcSt) (by simp) (by simp [hst])
    exact stepInvariant_iff.2 ⟨hs, hl, hc.congr rfl rfl rfl rfl⟩
  | sendData b =>
    have hs := SlotInvariant.of_accepted (k := .data) (st := r.dcSt) (by simp) (by simp [hst])
    exact stepInvariant_iff.2 ⟨hs, hl, hc.congr rfl rfl rfl rfl⟩
  | writeNumber v =>
    refine stepInvariant_iff.2 ⟨?_, by simpa [acceptWrites] using hl, .load _ _⟩
    simpa [acceptWrites] using SlotInvariant.of_accepted (k := .number) (by simp) (by split <;> simp)

/-- The slot is free exactly over registers whose slot is written idle. -/
theorem unitOfWork_busy_of_slotFree {r : Regs c} (h : slotFree r.busy (unitOfWork r).done = true) :
    (unitOfWork r).regs.busy = false := by
  rcases slotFree_iff.1 h with hb | hd
  · rw [unitOfWork_of_idle hb]; exact hb
  · exact (unitOfWork_done hd).1

/-- Every tick, a reset or not, ends in a next state, and keeps the invariant. -/
theorem step_stepInvariant {s : State} (h : StepInvariant s.regs) : ∃ t, step s = .next t ∧ StepInvariant t.regs := by
  cases hr : (nextInput s).rst with
  | true => exact ⟨_, step_of_rst hr, reset_stepInvariant _⟩
  | false =>
    refine ⟨_, step_eq hr, ?_⟩
    show StepInvariant (if _ then _ else _)
    have hw := unitOfWork_stepInvariant h
    split
    · next hfree => exact acceptWrites_stepInvariant hw (unitOfWork_busy_of_slotFree hfree) _
    · exact hw

/-- Settles O2, the invariant at reset of every configuration, the default one among them. -/
theorem stepInvariantAtReset : Obligations.StepInvariantAtReset :=
  ⟨reset_stepInvariant, reset_stepInvariant _⟩

/-- Settles O11, by the cases of the running request's work and of an acceptance. -/
theorem stepKeepsStepInvariant : Obligations.StepKeepsStepInvariant := by
  intro s t h hstep
  obtain ⟨t', ht', hinv⟩ := step_stepInvariant h
  cases hstep.symm.trans ht'
  exact hinv

/-- Any number of ticks keeps the invariant. -/
theorem run_stepInvariant (k : Nat) {s t : State} (h : StepInvariant s.regs)
    (hrun : Host.Core.run Sys2Proof.core k s = .next t) : StepInvariant t.regs := by
  induction k generalizing s with
  | zero => cases hrun; exact h
  | succ k ih =>
    obtain ⟨u, hu, hinv⟩ := step_stepInvariant h
    exact ih hinv ((run_succ hu k).symm.trans hrun)

/-- Settles O12: reset has the invariant of every tick, which R40 is part of. -/
theorem reachableStatesSatisfyTheInvariants : Obligations.ReachableStatesSatisfyTheInvariants :=
  fun c _ k _ hrun => (run_stepInvariant k (reset_stepInvariant c) hrun).toRegInvariants

end Sys2Proof.Machine
end

section
/-! The frame of a tick, for the running request's work and for an acceptance, and the settlement of O21. -/

namespace Sys2Proof.Machine

variable {c : Config}

/-- Each line changes only in its own phase of a sequencer step (R102). -/
theorem unitOfWork_lines_frame (r : Regs c) :
    (¬(seqEn r = true ∧ r.phase = .setRs) → (unitOfWork r).regs.lcdRs = r.lcdRs) ∧
    (¬(seqEn r = true ∧ r.phase = .setRw) → (unitOfWork r).regs.lcdRw = r.lcdRw) ∧
    (¬(seqEn r = true ∧ (r.phase = .preStrobeLow ∨ r.phase = .strobeHigh ∨ r.phase = .strobeLow)) →
      (unitOfWork r).regs.lcdE = r.lcdE) ∧
    (¬(seqEn r = true ∧ r.phase = .presentData) → (unitOfWork r).regs.lcdDb = r.lcdDb) := by
  cases he : seqEn r with
  | false =>
    obtain ⟨-, -, -, -, -, -, hrs, hrw, hel, hdb⟩ := unitOfWork_of_not_seqEn he
    exact ⟨fun _ => hrs, fun _ => hrw, fun _ => hel, fun _ => hdb⟩
  | true =>
    obtain ⟨rs, b, -, -, -, -, -, hrs, hrw, hel, hdb⟩ := unitOfWork_of_seqEn he
    rw [hrs, hrw, hel, hdb, sequencerStep_lcdRs, sequencerStep_lcdRw, sequencerStep_lcdE, sequencerStep_lcdDb]
    refine ⟨fun h => if_neg (by simpa using h), fun h => if_neg (by simpa using h), fun h => ?_,
      fun h => if_neg (by simpa using h)⟩
    simp only [true_and, not_or] at h
    simp [h]

/-- The converter changes only in a reversal tick or with a digit's byte (R152). -/
theorem unitOfWork_converter_frame {r : Regs c}
    (h : ¬(r.busy = true ∧ r.kind = .number ∧ (r.dcSt = .rev ∨ r.dcSt = .emit ∧ (unitOfWork r).byteDone = true))) :
    (unitOfWork r).regs.dcSt = r.dcSt ∧ (unitOfWork r).regs.dcV = r.dcV ∧ (unitOfWork r).regs.dcRev = r.dcRev ∧
    (unitOfWork r).regs.dcTz = r.dcTz := by
  have hw := unitOfWork_cases r
  generalize unitOfWork r = w at *
  cases hw with
  | still => exact ⟨rfl, rfl, rfl, rfl⟩
  | reversal hb hk hs => exact absurd ⟨hb, hk, .inl hs⟩ h
  | phase => simp
  | send => simp
  | digit _ _ he _ _ _ hk hs => exact absurd ⟨((seqEn_iff r).1 he).1, hk, .inr ⟨hs, rfl⟩⟩ h
  | lastDigit _ _ he _ _ _ hk hs => exact absurd ⟨((seqEn_iff r).1 he).1, hk, .inr ⟨hs, rfl⟩⟩ h

/-- The slot changes only by a completion (R139). -/
theorem unitOfWork_slot_frame {r : Regs c} (h : (unitOfWork r).done = false) :
    (unitOfWork r).regs.busy = r.busy ∧ (unitOfWork r).regs.kind = r.kind := by
  have hw := unitOfWork_cases r
  generalize unitOfWork r = w at *
  cases hw with
  | still => exact ⟨rfl, rfl⟩
  | reversal => exact ⟨rfl, rfl⟩
  | phase => simp
  | send => cases h
  | digit => simp
  | lastDigit => cases h

/-- Only an accepted SEND writes `byte_reg` (R22). -/
theorem acceptWrites_byteReg {i : Instr} (h : ¬∃ b, i = .sendCmd b ∨ i = .sendData b) (r : Regs c) :
    (acceptWrites i r).byteReg = r.byteReg := by
  cases i with
  | nop => rfl
  | sendCmd b => exact absurd ⟨b, .inl rfl⟩ h
  | sendData b => exact absurd ⟨b, .inr rfl⟩ h
  | writeNumber v => simp [acceptWrites]

/-- Only an accepted WRITE_NUMBER writes the converter (R151). -/
theorem acceptWrites_converter {i : Instr} (h : ¬∃ v, i = .writeNumber v) (r : Regs c) :
    (acceptWrites i r).dcSt = r.dcSt ∧ (acceptWrites i r).dcV = r.dcV ∧ (acceptWrites i r).dcRev = r.dcRev ∧
    (acceptWrites i r).dcTz = r.dcTz := by
  cases i with
  | nop => exact ⟨rfl, rfl, rfl, rfl⟩
  | sendCmd b => exact ⟨rfl, rfl, rfl, rfl⟩
  | sendData b => exact ⟨rfl, rfl, rfl, rfl⟩
  | writeNumber v => exact absurd ⟨v, rfl⟩ h

/-- The block accepts the request in this tick (R130). -/
def Accepts (r : Regs c) (i : Instr) : Prop := i ≠ .nop ∧ slotFree r.busy (unitOfWork r).done = true

/-- The verdict says so (R73). -/
theorem verdict_eq_accepted_iff {r : Regs c} {i : Instr} :
    (if i = .nop then Status.none else verdict (slotFree r.busy (unitOfWork r).done)) = .accepted ↔ Accepts r i := by
  unfold Accepts
  by_cases hi : i = .nop <;> cases slotFree r.busy (unitOfWork r).done <;> simp [hi, verdict]

/-- The registers a tick leaves, as `exec_eq` writes them. -/
def tickRegs (i : Instr) (r : Regs c) : Regs c :=
  if slotFree r.busy (unitOfWork r).done then acceptWrites i (unitOfWork r).regs else (unitOfWork r).regs

/-- An acceptance writes over the running request's work. -/
theorem tickRegs_of_accepts {i : Instr} {r : Regs c} (h : Accepts r i) :
    tickRegs i r = acceptWrites i (unitOfWork r).regs := if_pos h.2

/-- Without an acceptance the running request's work is all a tick does (R131, R133). -/
theorem tickRegs_of_not_accepts {i : Instr} {r : Regs c} (h : ¬Accepts r i) : tickRegs i r = (unitOfWork r).regs := by
  by_cases hi : i = .nop
  · subst hi; exact ite_id _
  · exact if_neg fun hfree => h ⟨hi, hfree⟩

/-- The lines of a tick are the running request's. -/
theorem tickRegs_lines (i : Instr) (r : Regs c) :
    (tickRegs i r).lcdRs = (unitOfWork r).regs.lcdRs ∧ (tickRegs i r).lcdRw = (unitOfWork r).regs.lcdRw ∧
    (tickRegs i r).lcdE = (unitOfWork r).regs.lcdE ∧ (tickRegs i r).lcdDb = (unitOfWork r).regs.lcdDb := by
  by_cases h : Accepts r i
  · rw [tickRegs_of_accepts h]; exact acceptWrites_lines i _
  · rw [tickRegs_of_not_accepts h]; exact ⟨rfl, rfl, rfl, rfl⟩

/-- `byte_reg` after a tick (R22). -/
theorem tickRegs_byteReg {i : Instr} {r : Regs c} (h : ¬(Accepts r i ∧ ∃ b, i = .sendCmd b ∨ i = .sendData b)) :
    (tickRegs i r).byteReg = r.byteReg := by
  by_cases ha : Accepts r i
  · rw [tickRegs_of_accepts ha, acceptWrites_byteReg (not_and.1 h ha), unitOfWork_byteReg]
  · rw [tickRegs_of_not_accepts ha, unitOfWork_byteReg]

/-- The converter after a tick is the running request's, unless a number is loaded (R151). -/
theorem tickRegs_converter {i : Instr} {r : Regs c} (h : ¬(Accepts r i ∧ ∃ v, i = .writeNumber v)) :
    (tickRegs i r).dcSt = (unitOfWork r).regs.dcSt ∧ (tickRegs i r).dcV = (unitOfWork r).regs.dcV ∧
    (tickRegs i r).dcRev = (unitOfWork r).regs.dcRev ∧ (tickRegs i r).dcTz = (unitOfWork r).regs.dcTz := by
  by_cases ha : Accepts r i
  · rw [tickRegs_of_accepts ha]; exact acceptWrites_converter (not_and.1 h ha) _
  · rw [tickRegs_of_not_accepts ha]; exact ⟨rfl, rfl, rfl, rfl⟩

/-- Settles O21: what an acceptance writes, over the frame of the running request's work. -/
theorem frameOfATick : Obligations.FrameOfATick := by
  intro i s
  refine ⟨tickRegs i s.regs, _, exec_eq i s, ?_⟩
  obtain ⟨hrs, hrw, he, hdb⟩ := unitOfWork_lines_frame s.regs
  obtain ⟨hrs', hrw', he', hdb'⟩ := tickRegs_lines i s.regs
  simp only [ne_eq, verdict_eq_accepted_iff, hrs', hrw', he', hdb']
  refine ⟨tickRegs_byteReg, hrs, hrw, he, hdb, fun hwork hload => ?_, fun hdone ha => ?_, fun hseq ha => ?_⟩
  · obtain ⟨hst, hv, hrev, htz⟩ := tickRegs_converter hload
    rw [hst, hv, hrev, htz]
    exact unitOfWork_converter_frame hwork
  · rw [tickRegs_of_not_accepts ha]
    exact unitOfWork_slot_frame hdone
  · rw [tickRegs_of_not_accepts ha]
    obtain ⟨-, -, -, -, hp, hq, -⟩ := unitOfWork_of_not_seqEn hseq
    exact ⟨hp, hq⟩

end Sys2Proof.Machine
end

section
/-! The verdict's code, and the settlement of O31. -/

namespace Sys2Proof.Machine

/-- A request's verdict is NOT_READY exactly when the block is busy and stays so (R130, R131). -/
theorem verdict_slotFree_code (busy done : Bool) :
    (verdict (slotFree busy done)).code = if busy = true ∧ done = false then 0b10#2 else 0b01#2 := by
  cases busy <;> cases done <;> rfl

/-- Settles O31: the ports read the next state, whose verdict `exec_eq` gives. -/
theorem portsShowTheEndOfTheTick : Obligations.PortsShowTheEndOfTheTick := by
  intro i s r o h
  obtain ⟨-, rfl⟩ := exec_next_iff.1 h
  by_cases hi : i = .nop
  · simp [ports, hi, Status.code]
  · simp [ports, hi, verdict_slotFree_code]

end Sys2Proof.Machine
end

section
/-! The digits left through a load and through the running number's work, and the settlement of O44. -/

namespace Sys2Proof.Machine

variable {c : Config}

/-- A digit's byte as a sum of numbers (R54, R77). -/
theorem digitByte_eq_ofNat (d : Nat) : digitByte d = BitVec.ofNat 8 (48 + d) := (BitVec.ofNat_add 48 d).symm

/-- In EMIT a running number presents its digit's byte (R77, R155). -/
theorem txByte_of_emit {r : Regs c} (hk : r.kind = .number) (hs : r.dcSt = .emit) :
    txByte r = some (digitByte (dcDigit r)) := by
  simp [txByte, hk, hs]

/-- A load leaves the value's numeral to send: the one zero in EMIT, any other value's digits in REV (R150). -/
theorem digitsLeft_loadNumber (v : BitVec c.numW) (r : Regs c) : digitsLeft (loadNumber v r) = numeral v.toNat := by
  by_cases hv : v = 0#_
  · subst hv
    rw [loadNumber_zero]
    simp [digitsLeft, numeral, narrow_toNat c.one_lt_tzW]
  · rw [loadNumber_of_ne_zero hv]
    simp [digitsLeft, numeral, mt eq_zero_iff_toNat.2 hv]

/-- The sequencer takes no digit. -/
@[simp] theorem digitsLeft_sequencerStep (rs : Bool) (b : Byte) (r : Regs c) :
    digitsLeft (sequencerStep rs b r) = digitsLeft r :=
  digitsLeft_congr (by simp) (by simp) (by simp) (by simp)

/-- In EMIT the digits left are the one presented and those its consumption leaves, whatever line is written in the same
tick (R155, R156). -/
theorem digitsLeft_eq_dcDigit_cons {r : Regs c} (h : ConverterInvariant r) (hs : r.dcSt = .emit) (rs : Bool)
    (b : Byte) :
    digitsLeft r = dcDigit r :: digitsLeft (consumeDigit (sequencerStep rs b r)) := by
  rw [digitsLeft_consumeDigit (h.phase_step rs b) (by simpa using hs), digitsLeft_sequencerStep,
    digitsLeft_of_emit hs (h.emit hs).2, List.tail_cons]

/-- An exhausted converter has no digit left (R157). -/
theorem digitsLeft_of_exhausted {r : Regs c} (hs : r.dcSt = .emit) (he : exhausted r = true) : digitsLeft r = [] := by
  simpa only [digitsLeft, hs] using exhausted_iff_no_digits.1 he

/-- Without the end of a byte the running request's work sends no digit. -/
theorem digitsLeft_unitOfWork_of_not_byteDone {r : Regs c} (h : ConverterInvariant r)
    (hd : (unitOfWork r).byteDone = false) : digitsLeft (unitOfWork r).regs = digitsLeft r := by
  have hw := unitOfWork_cases r
  generalize unitOfWork r = w at *
  cases hw with
  | still => rfl
  | reversal _ _ hs => exact digitsLeft_reversalStep h hs
  | phase => exact digitsLeft_sequencerStep _ _ r
  | send => cases hd
  | digit => cases hd
  | lastDigit => cases hd

/-- The end of a number's byte takes the digit presented off the front of those left (R156, R157). -/
theorem digitsLeft_unitOfWork_of_byteDone {r : Regs c} (h : ConverterInvariant r) (hk : r.kind = .number)
    (hd : (unitOfWork r).byteDone = true) :
    r.dcSt = .emit ∧ digitsLeft r = dcDigit r :: digitsLeft (unitOfWork r).regs := by
  have hw := unitOfWork_cases r
  generalize unitOfWork r = w at *
  cases hw with
  | still => cases hd
  | reversal => cases hd
  | phase => cases hd
  | send _ _ _ _ _ _ hsend => simp [hk] at hsend
  | digit rs b _ _ _ _ _ hs => exact ⟨hs, digitsLeft_eq_dcDigit_cons h hs rs b⟩
  | lastDigit rs b _ _ _ _ _ hs he =>
    have hnone := digitsLeft_of_exhausted (by simpa using hs) he
    exact ⟨hs, (digitsLeft_eq_dcDigit_cons h hs rs b).trans (congrArg (dcDigit r :: ·) hnone)⟩

/-- Settles O44: an acceptance loads the numeral; a NOP tick is the running number's work, with or without the end of a
byte. -/
theorem digitsLeaveMostSignificantFirst : Obligations.DigitsLeaveMostSignificantFirst := by
  refine ⟨fun v s r o hv hexec hacc => ?_, fun s r o hinv hk hexec => ?_⟩
  · obtain ⟨rfl, rfl⟩ := exec_next_iff.1 hexec
    obtain ⟨-, hfree⟩ := (verdict_eq_accepted_iff (i := .writeNumber v)).1 hacc
    rw [if_pos hfree, acceptWrites, digitsLeft_loadNumber, BitVec.toNat_ofNat, Nat.mod_eq_of_lt hv]
  · obtain ⟨rfl, rfl⟩ := execNop_next_iff.1 hexec
    obtain ⟨-, -, hc⟩ := stepInvariant_iff.1 hinv
    refine ⟨digitsLeft_unitOfWork_of_not_byteDone hc, fun hd => ?_⟩
    obtain ⟨hs, hcons⟩ := digitsLeft_unitOfWork_of_byteDone hc hk hd
    exact ⟨_, _, hcons, rfl, (txByte_of_emit hk hs).trans (congrArg some (digitByte_eq_ofNat _))⟩

end Sys2Proof.Machine
end

section
/-! The display pins behind the data lines, and the settlement of O30. -/

namespace Sys2Proof.Machine

theorem dbPin_eight (db : BitVec IfWidth.eight.bits) (i : Fin 8) : dbPin .eight db i = some (db.getLsbD i) := rfl

theorem dbPin_four (db : BitVec IfWidth.four.bits) (i : Fin 8) :
    dbPin .four db i = if 4 ≤ i.val then some (db.getLsbD (i.val - 4)) else none := rfl

/-- Settles O30, by the two interface widths and, with four lines, the pins from DB4 on and those below. -/
theorem dataLinesDriveTheirPins : Obligations.DataLinesDriveTheirPins := by
  refine ⟨dbPin_eight, fun db i j hj => ?_, fun db i hi => ?_⟩
  · have hline : j.val - 4 = i.val := by omega
    rw [dbPin_four, if_pos (by omega), hline]
  · rw [dbPin_four, if_neg (by omega)]

end Sys2Proof.Machine
end

section
/-! A program's requests presented one a tick (R87, R186), a SEND request's byte from its acceptance to its final phase
(R109, R134, R135), and the settlement of O49. -/

namespace Sys2Proof.Machine

variable {c : Config}

/-! ### One tick of a program -/

/-- The state a tick with the request `i` ends in, as `exec_eq` writes it. -/
def afterTick (i : Instr) (s : State) : State :=
  ⟨s.cfg, tickRegs i s.regs,
    ⟨if i = .nop then .none else verdict (slotFree s.regs.busy (unitOfWork s.regs).done),
      (unitOfWork s.regs).byteDone, (unitOfWork s.regs).done⟩,
    s.inputs⟩

theorem exec_eq_afterTick (i : Instr) (s : State) : exec i s = .next (afterTick i s) := exec_eq i s

@[simp] theorem afterTick_cfg (i : Instr) (s : State) : (afterTick i s).cfg = s.cfg := rfl
@[simp] theorem afterTick_regs (i : Instr) (s : State) : (afterTick i s).regs = tickRegs i s.regs := rfl

/-- A program's next tick runs its first request (R186). -/
theorem step_loadProgram_cons {s : State} {i : Instr} (hi : i.wf s.cfg.numW = true) (is : List Instr) :
    step (loadProgram s (i :: is)) = .next (loadProgram (afterTick i s) is) := by
  have hreq : step (loadProgram s (i :: is)) = exec (decode (encode s.cfg.numW i)) (loadProgram s is) :=
    step_of_request rfl
  rw [hreq, decode_encode s.cfg.numW_ge hi]
  exact exec_eq_afterTick i (loadProgram s is)

/-- Past a program's last request the tick is a NOP's (R186). -/
theorem step_loadProgram_nil (s : State) :
    step (loadProgram s []) = .next (loadProgram (afterTick .nop s) []) := by
  have hreq : step (loadProgram s []) = exec (decode 0#(2 + s.cfg.numW)) (loadProgram s []) := step_of_request rfl
  have hnop : decode (0#(2 + s.cfg.numW) : ReqWord s.cfg.numW) = .nop := by simp [decode, opField]
  rw [hreq, hnop]
  exact exec_eq_afterTick .nop (loadProgram s [])

/-- The byte whose final phase the running request's work does in this tick, if there is one (R77, R107). -/
def byteEnding (r : Regs c) : List Byte := if (unitOfWork r).byteDone then (txByte r).toList else []

theorem sentBytes_loadProgram_cons {s : State} {i : Instr} (hi : i.wf s.cfg.numW = true) (is : List Instr) (k : Nat) :
    sentBytes (k + 1) (loadProgram s (i :: is)) =
      byteEnding s.regs ++ sentBytes k (loadProgram (afterTick i s) is) :=
  sentBytes_succ (step_loadProgram_cons hi is) k

theorem sentBytes_loadProgram_nil (s : State) (k : Nat) :
    sentBytes (k + 1) (loadProgram s []) = byteEnding s.regs ++ sentBytes k (loadProgram (afterTick .nop s) []) :=
  sentBytes_succ (step_loadProgram_nil s) k

/-- An idle block ends no byte. -/
theorem byteEnding_of_idle {r : Regs c} (h : r.busy = false) : byteEnding r = [] := by
  simp [byteEnding, unitOfWork_of_idle h]

/-! ### One byte of a SEND request -/

/-- A SEND request is sending the byte `b`. -/
structure SendsByte (b : Byte) (r : Regs c) : Prop where
  inv : StepInvariant r
  busy : r.busy = true
  send_kind : r.kind = .cmd ∨ r.kind = .data
  byte : r.byteReg = b

theorem SendsByte.txByte {b : Byte} {r : Regs c} (h : SendsByte b r) : txByte r = some b := by
  rcases h.send_kind with hk | hk <;> simp [Machine.txByte, hk, h.byte]

/-- All that a tick of the byte can do: one phase inside it, or the final phase, which completes the request (R138). -/
theorem SendsByte.unitOfWork_eq {b : Byte} {r : Regs c} (h : SendsByte b r) :
    ∃ rs, unitOfWork r =
      if (advance c r.phase r.pass).last then ⟨releaseSlot (sequencerStep rs b r), true, true⟩
      else ⟨sequencerStep rs b r, false, false⟩ := by
  obtain ⟨rs, hwork⟩ : ∃ rs, unitOfWork r = sequencerWork rs b r := by
    rcases h.send_kind with hk | hk
    · exact ⟨false, h.byte ▸ unitOfWork_of_cmd h.busy hk⟩
    · exact ⟨true, h.byte ▸ unitOfWork_of_data h.busy hk⟩
  refine ⟨rs, hwork.trans ?_⟩
  cases hl : (advance c r.phase r.pass).last with
  | false => exact sequencerWork_of_not_last hl
  | true => exact sequencerWork_of_send hl h.send_kind

/-- The byte's final tick ends the byte and completes the request (R107, R138). -/
theorem SendsByte.final_tick {b : Byte} {r : Regs c} (h : SendsByte b r) (hl : byteTicksLeft r = 1) :
    (unitOfWork r).done = true ∧ byteEnding r = [b] := by
  obtain ⟨rs, hwork⟩ := h.unitOfWork_eq
  rw [if_pos ((byteTicksLeft_last h.inv.eight_lines).2 hl)] at hwork
  simp [byteEnding, hwork, h.txByte]

/-- Before it, a tick with a NOP goes on with the byte and ends none (R106, R133). -/
theorem SendsByte.inner_tick {b : Byte} {r : Regs c} (h : SendsByte b r) {k : Nat} (hl : byteTicksLeft r = k + 2) :
    byteEnding r = [] ∧ SendsByte b (tickRegs .nop r) ∧ byteTicksLeft (tickRegs .nop r) = k + 1 := by
  have hnot : (advance c r.phase r.pass).last = false := by
    rw [Bool.eq_false_iff, ne_eq, byteTicksLeft_last h.inv.eight_lines]
    omega
  have hinv := unitOfWork_stepInvariant h.inv
  rw [tickRegs_of_not_accepts (i := .nop) (fun ha => ha.1 rfl)]
  obtain ⟨rs, hwork⟩ := h.unitOfWork_eq
  rw [hnot, if_neg Bool.false_ne_true] at hwork
  rw [hwork] at hinv ⊢
  have hleft : byteTicksLeft (sequencerStep rs b r) = k + 1 := by
    have := byteTicksLeft_step h.inv.eight_lines rs b hnot
    omega
  refine ⟨by simp [byteEnding, hwork], ⟨hinv, ?_, ?_, ?_⟩, hleft⟩
  · exact (sequencerStep_busy rs b r).trans h.busy
  · exact (sequencerStep_kind rs b r).symm ▸ h.send_kind
  · exact (sequencerStep_byteReg rs b r).trans h.byte

/-- A free slot takes SEND_DATA, with all `P` ticks of its byte to come (R109, R130, R135). -/
theorem SendsByte.of_sendData {r : Regs c} (h : StepInvariant r)
    (hfree : slotFree r.busy (unitOfWork r).done = true) (b : Byte) :
    SendsByte b (tickRegs (.sendData b) r) ∧ byteTicksLeft (tickRegs (.sendData b) r) = c.byteTicks := by
  rw [tickRegs_of_accepts (i := .sendData b) ⟨nofun, hfree⟩]
  have hinv := acceptWrites_stepInvariant (unitOfWork_stepInvariant h) (unitOfWork_busy_of_slotFree hfree) (.sendData b)
  exact ⟨⟨hinv, rfl, .inr rfl, rfl⟩, byteTicksLeft_start rfl rfl⟩

/-- The NOPs up to a byte's final tick send nothing; what comes after them starts in that tick. -/
theorem sentBytes_up_to_final_tick {b : Byte} (k : Nat) {s : State} (h : SendsByte b s.regs)
    (hl : byteTicksLeft s.regs = k + 1) :
    ∃ t : State, t.cfg = s.cfg ∧ SendsByte b t.regs ∧ byteTicksLeft t.regs = 1 ∧ ∀ is m,
      sentBytes (k + m) (loadProgram s (List.replicate k .nop ++ is)) = sentBytes m (loadProgram t is) := by
  induction k generalizing s with
  | zero => exact ⟨s, rfl, h, hl, fun is m => by simp⟩
  | succ k ih =>
    obtain ⟨hnone, hsends, hleft⟩ := h.inner_tick hl
    obtain ⟨t, hcfg, ht, hlast, hsent⟩ := ih (s := afterTick .nop s) hsends hleft
    refine ⟨t, hcfg, ht, hlast, fun is m => ?_⟩
    rw [List.replicate_succ, List.cons_append, Nat.add_right_comm, sentBytes_loadProgram_cons rfl, hnone,
      List.nil_append, hsent]

/-! ### A string -/

theorem expand_sendString_cons (c : Config) (b : Byte) (cs : List Byte) :
    Line.expand c (.sendString (b :: cs)) =
      .sendData b :: (List.replicate (c.byteTicks - 1) .nop ++ Line.expand c (.sendString cs)) := rfl

/-- Presented to a free slot, a string is sent after the byte that ends in that tick: each character is accepted in the
final tick of the byte before it (R132). -/
theorem sentBytes_sendString (cs : List Byte) {s : State} (h : StepInvariant s.regs)
    (hfree : slotFree s.regs.busy (unitOfWork s.regs).done = true) :
    sentBytes (cs.length * s.cfg.byteTicks + 1) (loadProgram s (Line.expand s.cfg (.sendString cs))) =
      byteEnding s.regs ++ cs := by
  induction cs generalizing s with
  | nil =>
    rw [List.length_nil, Nat.zero_mul]
    exact sentBytes_loadProgram_nil s 0
  | cons b cs ih =>
    obtain ⟨hsends, hleft⟩ := SendsByte.of_sendData h hfree b
    have hP := s.cfg.byteTicks_pos
    have hticks : (b :: cs).length * s.cfg.byteTicks + 1 =
        (s.cfg.byteTicks - 1 + (cs.length * s.cfg.byteTicks + 1)) + 1 := by
      rw [List.length_cons, Nat.succ_mul]; omega
    obtain ⟨t, hcfg, ht, hlast, hsent⟩ :=
      sentBytes_up_to_final_tick (s.cfg.byteTicks - 1) (s := afterTick (.sendData b) s) hsends
        (hleft.trans (Nat.sub_add_cancel (by omega)).symm)
    obtain ⟨hdone, hb⟩ := ht.final_tick hlast
    have hrest := ih ht.inv (slotFree_iff.2 (.inr hdone))
    rw [hb, hcfg, afterTick_cfg] at hrest
    rw [hticks, expand_sendString_cons, sentBytes_loadProgram_cons rfl, hsent, hrest]
    rfl

/-- Settles O49: an idle block is a free slot with no byte to end. -/
theorem stringIsSentInOrder : Obligations.StringIsSentInOrder := by
  intro s cs h hb
  rw [sentBytes_sendString cs h (slotFree_iff.2 (.inl hb)), byteEnding_of_idle hb, List.nil_append]

end Sys2Proof.Machine
end

section
/-! What a word decodes to, by its op field alone, and the settlements of O5 and O6. -/

namespace Sys2Proof

/-- The operation codes of R72 are all the values of the op field. -/
theorem op_cases (op : BitVec 2) : op = 0b00#2 ∨ op = 0b01#2 ∨ op = 0b10#2 ∨ op = 0b11#2 := by
  revert op; decide

section
variable {n : Nat} {w : ReqWord n}

theorem decode_of_op_nop (h : opField w = 0b00#2) : decode w = .nop := by simp [decode, h]

theorem decode_of_op_sendCmd (h : opField w = 0b01#2) : decode w = .sendCmd (byteOperand (argField w)) := by
  simp [decode, h]

theorem decode_of_op_sendData (h : opField w = 0b10#2) : decode w = .sendData (byteOperand (argField w)) := by
  simp [decode, h]

theorem decode_of_op_writeNumber (h : opField w = 0b11#2) : decode w = .writeNumber (valueOperand (argField w)) := by
  simp [decode, h]

end

/-- The byte operand is the low byte of the operand field (R71). -/
theorem byteOperand_eq_ofNat {n : Nat} (arg : BitVec n) : byteOperand arg = BitVec.ofNat 8 arg.toNat :=
  BitVec.eq_of_toNat_eq (by simp [byteOperand])

/-- A decoded operand is well formed: a number is a value of the operand field (R71). -/
theorem decode_wf {n : Nat} (w : ReqWord n) : (decode w).wf n = true := by
  rcases op_cases (opField w) with h | h | h | h
  · rw [decode_of_op_nop h]; rfl
  · rw [decode_of_op_sendCmd h]; rfl
  · rw [decode_of_op_sendData h]; rfl
  · rw [decode_of_op_writeNumber h]; exact decide_eq_true (argField w).isLt

/-- The code of the request a word decodes to is the word's op field (R72). -/
theorem opcode_decode {n : Nat} (w : ReqWord n) : opcode (decode w) = opField w := by
  rcases op_cases (opField w) with h | h | h | h
  · rw [decode_of_op_nop h, h]; rfl
  · rw [decode_of_op_sendCmd h, h]; rfl
  · rw [decode_of_op_sendData h, h]; rfl
  · rw [decode_of_op_writeNumber h, h]; rfl

@[simp] theorem opField_encode (n : Nat) (i : Instr) : opField (encode n i) = opcode i := opField_append _ _

/-- The low byte put back into the operand field has its upper bits 0 (R71, R87). -/
theorem setWidth_byteOperand {n : Nat} (arg : BitVec n) :
    (byteOperand arg).setWidth n = BitVec.ofNat n (arg.toNat % 256) :=
  BitVec.eq_of_toNat_eq (by simp [byteOperand])

/-- The whole operand put back is the operand. -/
theorem ofNat_valueOperand {n : Nat} (arg : BitVec n) : BitVec.ofNat n (valueOperand arg) = arg :=
  (BitVec.ofNat_toNat n arg).trans (BitVec.setWidth_eq arg)

/-- Settles O5: the request's code is the word's op field, and its operand goes back into the arg field. -/
theorem encodeOfDecodeClearsIgnoredBits : Obligations.EncodeOfDecodeClearsIgnoredBits := by
  intro n w _
  rw [opField_encode, argField_encode]
  refine ⟨opcode_decode w, ?_⟩
  rcases op_cases (opField w) with h | h | h | h
  · rw [decode_of_op_nop h]; rfl
  · rw [decode_of_op_sendCmd h]; exact setWidth_byteOperand _
  · rw [decode_of_op_sendData h]; exact setWidth_byteOperand _
  · rw [decode_of_op_writeNumber h]; exact ofNat_valueOperand _

/-- Settles O6: the decoder's rows by op field, with the byte operand as the arg field's low byte. -/
theorem operationCodeSelectsTheRequest : Obligations.OperationCodeSelectsTheRequest := by
  intro n w _
  rw [← byteOperand_eq_ofNat]
  exact ⟨decode_of_op_nop, decode_of_op_sendCmd, decode_of_op_sendData, decode_of_op_writeNumber, decode_wf w⟩

end Sys2Proof
end

section
/-! The words of the opcode table (R89), and the settlements of O7 and O8. -/

namespace Sys2Proof

/-- A number of 34 bits is a table word. -/
theorem decodeTableWord_of_lt {w : Nat} (hw : w < 2 ^ 34) :
    decodeTableWord 40 w = some (decode (n := 32) (BitVec.ofNat 34 w)) := by
  rw [decodeTableWord, Nat.mod_eq_of_lt (by omega), decodeNat, if_pos hw]

/-- The op field of a table word is what its bits 33:32 hold (R89). -/
theorem opField_ofNat_of_mask {w op : Nat} (hw : w < 2 ^ 34) (h : w &&& 0x300000000 = op * 2 ^ 32) :
    opField (n := 32) (BitVec.ofNat 34 w) = BitVec.ofNat 2 op := by
  have hbits : w / 2 ^ 32 % 4 = op := by
    calc w / 2 ^ 32 % 4 = w / 2 ^ 32 &&& 3 := (Nat.and_two_pow_sub_one_eq_mod _ 2).symm
      _ = (w &&& 0x300000000) / 2 ^ 32 := by
        rw [← Nat.shiftRight_eq_div_pow, ← Nat.shiftRight_eq_div_pow, Nat.shiftRight_and_distrib]; rfl
      _ = op := by rw [h, Nat.mul_div_cancel _ (by norm_num)]
  apply BitVec.eq_of_toNat_eq
  rw [opField, BitVec.extractLsb'_toNat, BitVec.toNat_ofNat, BitVec.toNat_ofNat, Nat.mod_eq_of_lt hw,
    Nat.shiftRight_eq_div_pow]
  omega

/-- The arg field of a table word is its bits 31:0 (R89). -/
theorem argField_ofNat {w : Nat} (hw : w < 2 ^ 34) : (argField (n := 32) (BitVec.ofNat 34 w)).toNat = w % 2 ^ 32 := by
  rw [argField, BitVec.extractLsb'_toNat, BitVec.toNat_ofNat, Nat.mod_eq_of_lt hw, Nat.shiftRight_zero]

theorem byteOperand_ofNat {w : Nat} (hw : w < 2 ^ 34) :
    byteOperand (argField (n := 32) (BitVec.ofNat 34 w)) = BitVec.ofNat 8 w := by
  rw [byteOperand_eq_ofNat, argField_ofNat hw]
  apply BitVec.eq_of_toNat_eq
  rw [BitVec.toNat_ofNat, BitVec.toNat_ofNat]
  omega

theorem decodeTableWord_nop {w : Nat} (hw : w < 2 ^ 34) (h : w &&& 0x300000000 = 0x000000000) :
    decodeTableWord 40 w = some .nop := by
  rw [decodeTableWord_of_lt hw, decode_of_op_nop (opField_ofNat_of_mask hw h)]

theorem decodeTableWord_sendCmd {w : Nat} (hw : w < 2 ^ 34) (h : w &&& 0x300000000 = 0x100000000) :
    decodeTableWord 40 w = some (.sendCmd (BitVec.ofNat 8 w)) := by
  rw [decodeTableWord_of_lt hw, decode_of_op_sendCmd (opField_ofNat_of_mask hw h), byteOperand_ofNat hw]

theorem decodeTableWord_sendData {w : Nat} (hw : w < 2 ^ 34) (h : w &&& 0x300000000 = 0x200000000) :
    decodeTableWord 40 w = some (.sendData (BitVec.ofNat 8 w)) := by
  rw [decodeTableWord_of_lt hw, decode_of_op_sendData (opField_ofNat_of_mask hw h), byteOperand_ofNat hw]

theorem decodeTableWord_writeNumber {w : Nat} (hw : w < 2 ^ 34) (h : w &&& 0x300000000 = 0x300000000) :
    decodeTableWord 40 w = some (.writeNumber (w % 2 ^ 32)) := by
  rw [decodeTableWord_of_lt hw, decode_of_op_writeNumber (opField_ofNat_of_mask hw h), valueOperand, argField_ofNat hw]

/-- A table word as a number: the code above the operand (R70, R89). -/
theorem encode_toNat (n : Nat) (i : Instr) :
    (encode n i).toNat = (opcode i).toNat <<< n ||| (operandBits n i).toNat :=
  BitVec.toNat_append _ _

/-- Settles O7, row by row: the decoder by bits 33:32, the encoder by its two fields. -/
theorem tableRowsSelectTheirRequests : Obligations.TableRowsSelectTheirRequests := by
  refine ⟨fun w hw => ⟨decodeTableWord_nop hw, decodeTableWord_sendCmd hw, decodeTableWord_sendData hw,
    decodeTableWord_writeNumber hw⟩, by decide, fun b => ?_, fun b => ?_, fun v hv => ?_⟩
  · have hcode : (opcode (.sendCmd b)).toNat <<< 32 = 0x100000000 := by simp [opcode]
    rw [encode_toNat, hcode, operandBits, BitVec.toNat_setWidth_of_le (by decide)]
  · have hcode : (opcode (.sendData b)).toNat <<< 32 = 0x200000000 := by simp [opcode]
    rw [encode_toNat, hcode, operandBits, BitVec.toNat_setWidth_of_le (by decide)]
  · have hcode : (opcode (.writeNumber v)).toNat <<< 32 = 0x300000000 := by simp [opcode]
    rw [encode_toNat, hcode, operandBits, BitVec.toNat_ofNat, Nat.mod_eq_of_lt hv]

/-- Settles O8, each word by its row of the table. -/
theorem wordsOfTheSpecDecode : Obligations.WordsOfTheSpecDecode :=
  ⟨decodeTableWord_nop (by decide) (by decide), decodeTableWord_sendCmd (by decide) (by decide),
    decodeTableWord_sendCmd (by decide) (by decide), decodeTableWord_sendData (by decide) (by decide),
    decodeTableWord_writeNumber (by decide) (by decide)⟩

end Sys2Proof
end

section
/-! The settlement of O20, from the verdict's code. -/

namespace Sys2Proof.Machine

/-- Settles O20: a NOP's verdict is NONE, and any other request's is the slot's. -/
theorem statusCodeOfEveryRequest : Obligations.StatusCodeOfEveryRequest := by
  intro i s r o h
  obtain ⟨-, rfl⟩ := exec_next_iff.1 h
  by_cases hi : i = .nop
  · simp [hi, Status.code]
  · simp only [if_neg hi, verdict_slotFree_code]
    cases s.regs.busy <;> cases (unitOfWork s.regs).done <;> simp [hi]

end Sys2Proof.Machine
end

section
/-! The bits of a request word that R71 ignores, and the settlement of O22. -/

namespace Sys2Proof

/-- The byte operand depends on the arg field's low byte alone (R71). -/
theorem byteOperand_congr {n : Nat} {a a' : BitVec n} (h : a.toNat % 256 = a'.toNat % 256) :
    byteOperand a = byteOperand a' :=
  BitVec.eq_of_toNat_eq (by simpa [byteOperand] using h)

/-- The decoder reads no bit that R71 ignores. -/
theorem decode_append_congr {n : Nat} {op : BitVec 2} {a a' : BitVec n}
    (hsend : op ≠ 0b11#2 → op ≠ 0b00#2 → a.toNat % 256 = a'.toNat % 256) (hnumber : op = 0b11#2 → a = a') :
    decode (n := n) (op ++ a) = decode (n := n) (op ++ a') := by
  rcases op_cases op with rfl | rfl | rfl | rfl
  · rw [decode_append_nop, decode_append_nop]
  · rw [decode_append_sendCmd, decode_append_sendCmd, byteOperand_congr (hsend (by decide) (by decide))]
  · rw [decode_append_sendData, decode_append_sendData, byteOperand_congr (hsend (by decide) (by decide))]
  · rw [hnumber rfl]

end Sys2Proof

namespace Sys2Proof.Machine

/-- A placed word's tick is its request's (R181). -/
theorem step_placeWord (s : State) (w : ReqWord s.cfg.numW) :
    step (placeWord s w) = exec (decode w) (dropInput s) :=
  step_of_request rfl

/-- Settles O22: a tick reads a word through the decoder only. -/
theorem ignoredBitsDoNotMatter : Obligations.IgnoredBitsDoNotMatter := by
  intro s op a a' hsend hnumber
  rw [step_placeWord, step_placeWord, decode_append_congr hsend hnumber]

end Sys2Proof.Machine
end

section
/-! What a sequencer step does to the counters and the lines, in the numbers of R80 (R102 to R108), and the settlements of
O23 to O29. -/

namespace Sys2Proof.Machine

variable {c : Config}

/-! ### Phases, counters and lines by number -/

/-- A phase is its number (R80). -/
theorem Phase.num_eq_iff (p : Phase) :
    (p.num = 0 ↔ p = .setRs) ∧ (p.num = 1 ↔ p = .setRw) ∧ (p.num = 2 ↔ p = .preStrobeLow) ∧
    (p.num = 3 ↔ p = .presentData) ∧ (p.num = 4 ↔ p = .strobeHigh) ∧ (p.num = 5 ↔ p = .strobeLow) := by
  cases p <;> decide

@[simp] theorem pass2Phase_num (e : Pass2Entry) : (pass2Phase e).num = e.num := by cases e <;> rfl

/-- Phase 5 is the last. -/
theorem Phase.eq_strobeLow_of_not_lt {p : Phase} (h : ¬p.num < 5) : p = .strobeLow := by
  revert h
  cases p <;> decide

/-- Below phase 5 a step goes on to the next phase of the same pass (R106). -/
theorem advance_of_lt {p : Phase} (h : p.num < 5) (q : Pass) :
    (advance c p q).phase.num = p.num + 1 ∧ (advance c p q).pass = q ∧ (advance c p q).last = false := by
  cases p with
  | strobeLow => exact absurd h (by decide)
  | _ => exact ⟨rfl, rfl, rfl⟩

/-- After phase 5 of a 4-bit first pass comes the second pass, from its entry (R106, C1). -/
theorem advance_strobeLow_four_first (h : c.ifWidth = .four) :
    advance c .strobeLow .first = ⟨pass2Phase c.pass2Entry, .second, false⟩ := by
  simp [advance, h]

/-- The register-select level is low for a command alone (R76). -/
theorem rsOf_eq_some {k : Kind} {rs : Bool} (h : rsOf k = some rs) : rs = decide (k ≠ .cmd) := by
  cases k with
  | none => cases h
  | cmd => cases h; rfl
  | data => cases h; rfl
  | number => cases h; rfl

/-! ### The byte and its nibbles as numbers -/

/-- The transmitted byte is `byte_reg`, or a number's digit + 48 (R77). -/
theorem txByte_toNat {r : Regs c} {b : Byte} (h : txByte r = some b) :
    b.toNat = if r.kind = .number then 48 + dcDigit r else r.byteReg.toNat := by
  unfold txByte at h
  cases hk : r.kind with
  | none => simp [hk] at h
  | cmd => rw [hk] at h; cases h; rfl
  | data => rw [hk] at h; cases h; rfl
  | number =>
    cases hs : r.dcSt with
    | idle => simp [hk, hs] at h
    | rev => simp [hk, hs] at h
    | emit =>
      simp only [hk, hs, Option.some.injEq] at h
      rw [← h, if_pos rfl, digitByte_toNat (dcDigit_lt r)]

/-- Eight lines carry the byte (R81). -/
theorem sel_eight_toNat {w : IfWidth} (hw : w = .eight) (b : Byte) : (sel w b .first).toNat = b.toNat := by
  subst hw; rfl

/-- Four lines carry the high nibble in the first pass (R81). -/
theorem sel_four_first_toNat {w : IfWidth} (hw : w = .four) (b : Byte) : (sel w b .first).toNat = b.toNat / 16 := by
  subst hw
  have hb := b.isLt
  show (b.extractLsb' 4 4).toNat = _
  rw [BitVec.extractLsb'_toNat, Nat.shiftRight_eq_div_pow]
  omega

/-- Four lines carry the low nibble in the second pass (R81). -/
theorem sel_four_second_toNat {w : IfWidth} (hw : w = .four) (b : Byte) :
    (sel w b .second).toNat = b.toNat % 16 := by
  subst hw
  show (b.extractLsb' 0 4).toNat = _
  rw [BitVec.extractLsb'_toNat, Nat.shiftRight_zero]

/-! ### The NOP tick -/

/-- Settles O23: a sequencer step moves the phase, and without one the counters and lines stand still. -/
theorem sequencerRunsExactlyWhenEnabled : Obligations.SequencerRunsExactlyWhenEnabled := by
  intro s r o h
  obtain ⟨rfl, rfl⟩ := execNop_next_iff.1 h
  rw [← seqEn_iff]
  cases he : seqEn s.regs with
  | false =>
    obtain ⟨hlast, -, -, -, hp, hq, hrs, hrw, hel, hdb⟩ := unitOfWork_of_not_seqEn he
    exact ⟨by simp [hp], fun _ => ⟨hp, hq, hrs, hrw, hel, hdb, hlast⟩⟩
  | true =>
    obtain ⟨rs, b, -, -, -, hp, -⟩ := unitOfWork_of_seqEn he
    exact ⟨by simp [hp, advance_phase_ne], fun hne => absurd rfl hne⟩

/-- Settles O24, by the line writes of a sequencer step. -/
theorem phaseWritesOneLine : Obligations.PhaseWritesOneLine := by
  intro s r o b h he htx
  obtain ⟨rfl, rfl⟩ := execNop_next_iff.1 h
  obtain ⟨rs, b', hrsOf, htx', -, -, -, hrs, hrw, hel, hdb⟩ := unitOfWork_of_seqEn he
  cases htx.symm.trans htx'
  cases rsOf_eq_some hrsOf
  simp only [Phase.num_eq_iff]
  exact ⟨hrs.trans (sequencerStep_lcdRs ..), hrw.trans (sequencerStep_lcdRw ..), hel.trans (sequencerStep_lcdE ..),
    hdb.trans (sequencerStep_lcdDb ..)⟩

/-- Settles O25: phase 3 writes `sel` of the transmitted byte. -/
theorem dataLinesCarryTheSelectedNibble : Obligations.DataLinesCarryTheSelectedNibble := by
  intro s r o h he byte
  obtain ⟨rfl, rfl⟩ := execNop_next_iff.1 h
  obtain ⟨rs, b, -, htx, -, -, -, -, -, -, hdb⟩ := unitOfWork_of_seqEn he
  have hbyte : b.toNat = byte := txByte_toNat htx
  rw [hdb, sequencerStep_lcdDb, ← hbyte]
  refine ⟨fun hp hw hq => ?_, fun hp hw hq => ?_, fun hp hw hq => ?_, fun hp => if_neg hp⟩
  · rw [if_pos hp, hq, sel_eight_toNat hw]
  · rw [if_pos hp, hq, sel_four_first_toNat hw]
  · rw [if_pos hp, hq, sel_four_second_toNat hw]

/-- Settles O27, by the three ways the counters advance. -/
theorem countersAdvance : Obligations.CountersAdvance := by
  intro s r o h he
  obtain ⟨rfl, rfl⟩ := execNop_next_iff.1 h
  obtain ⟨-, -, -, -, hlast, hp, hq, -⟩ := unitOfWork_of_seqEn he
  simp only [hlast, hp, hq]
  split
  · next hlt => exact advance_of_lt hlt _
  · next hge =>
    rw [Phase.eq_strobeLow_of_not_lt hge]
    split
    · next hfirst =>
      obtain ⟨hw, hpass⟩ := hfirst
      rw [hpass, advance_strobeLow_four_first hw]
      exact ⟨pass2Phase_num _, rfl, rfl⟩
    · next hfinal =>
      have hend : (advance s.cfg .strobeLow s.regs.pass).last = true := by
        refine (advance_last_iff _ _).2 ⟨rfl, ?_⟩
        revert hfinal
        cases s.cfg.ifWidth <;> cases s.regs.pass <;> simp
      obtain ⟨hp0, hq0⟩ := advance_of_last hend
      exact ⟨by rw [hp0]; rfl, hq0, hend⟩

/-! ### Every request's tick -/

/-- A byte ends exactly in the sequencer step of its final phase (R107). -/
theorem unitOfWork_byteDone_iff (r : Regs c) :
    (unitOfWork r).byteDone = true ↔ seqEn r = true ∧ (advance c r.phase r.pass).last = true := by
  cases he : seqEn r with
  | false => simp [unitOfWork_of_not_seqEn he]
  | true =>
    obtain ⟨-, -, -, -, hlast, -⟩ := unitOfWork_of_seqEn he
    simp [hlast]

/-- An acceptance leaves counters that are at their start there (R130). -/
theorem acceptWrites_counters {r : Regs c} (hp : r.phase = .setRs) (hq : r.pass = .first) (i : Instr) :
    (acceptWrites i r).phase = .setRs ∧ (acceptWrites i r).pass = .first := by
  cases i <;> simp [acceptWrites, hp, hq]

/-- When a byte ends the counters are back at their start, whatever the tick accepts (R108). -/
theorem tickRegs_counters_of_byteDone {r : Regs c} (h : (unitOfWork r).byteDone = true) (i : Instr) :
    (tickRegs i r).phase = .setRs ∧ (tickRegs i r).pass = .first := by
  obtain ⟨he, hlast⟩ := (unitOfWork_byteDone_iff r).1 h
  obtain ⟨-, -, -, -, -, hp, hq, -⟩ := unitOfWork_of_seqEn he
  obtain ⟨hp0, hq0⟩ := advance_of_last hlast
  by_cases ha : Accepts r i
  · rw [tickRegs_of_accepts ha]
    exact acceptWrites_counters (hp.trans hp0) (hq.trans hq0) i
  · rw [tickRegs_of_not_accepts ha]
    exact ⟨hp.trans hp0, hq.trans hq0⟩

/-- Settles O28, by the sequencer step that ends a byte and the counters it leaves. -/
theorem byteDoneMarksTheFinalPhase : Obligations.ByteDoneMarksTheFinalPhase := by
  intro i s r o h
  obtain ⟨hr : r = tickRegs i s.regs, rfl⟩ := exec_next_iff.1 h
  refine ⟨?_, fun hd => ?_⟩
  · rw [unitOfWork_byteDone_iff, advance_last_iff]
    simp only [Phase.num_eq_iff]
  · obtain ⟨hp, hq⟩ := tickRegs_counters_of_byteDone hd i
    exact ⟨by rw [hr, hp]; rfl, hr ▸ hq⟩

/-- The sequencer changes neither the byte it sends nor its own enable (R77, R100). -/
@[simp] theorem txByte_sequencerStep (rs : Bool) (b : Byte) (r : Regs c) : txByte (sequencerStep rs b r) = txByte r := by
  simp [txByte, dcDigit]

@[simp] theorem seqEn_sequencerStep (rs : Bool) (b : Byte) (r : Regs c) : seqEn (sequencerStep rs b r) = seqEn r := by
  simp [seqEn]

/-- Inside a byte the tick is one sequencer step, whatever is presented: the slot is not free (R106, R131). -/
theorem tickRegs_inside_byte {r : Regs c} (he : seqEn r = true) (hd : (unitOfWork r).byteDone = false) (i : Instr) :
    ∃ rs b, txByte r = some b ∧ tickRegs i r = sequencerStep rs b r := by
  have hbusy := ((seqEn_iff r).1 he).1
  suffices h : ∃ rs b, txByte r = some b ∧ unitOfWork r = ⟨sequencerStep rs b r, false, false⟩ by
    obtain ⟨rs, b, htx, hwork⟩ := h
    refine ⟨rs, b, htx, ?_⟩
    rw [tickRegs_of_not_accepts (by simp [Accepts, slotFree, hbusy, hwork]), hwork]
  have hw := unitOfWork_cases r
  generalize unitOfWork r = w at *
  cases hw with
  | still he' => simp [he'] at he
  | reversal _ hk hs => simp [seqEn_iff, hk, hs] at he
  | phase rs b _ _ htx => exact ⟨rs, b, htx, rfl⟩
  | send => cases hd
  | digit => cases hd
  | lastDigit => cases hd

/-- Settles O26: a sequencer step writes lines and counters only. -/
theorem byteIsConstantInsideAByte : Obligations.ByteIsConstantInsideAByte := by
  intro i s r o h he hd
  obtain ⟨hr : r = tickRegs i s.regs, rfl⟩ := exec_next_iff.1 h
  obtain ⟨rs, b, htx, htick⟩ := tickRegs_inside_byte he hd i
  rw [hr, htick, txByte_sequencerStep, sequencerStep_kind, seqEn_sequencerStep]
  exact ⟨⟨b, htx, htx⟩, rfl, he⟩

/-! ### The strobe -/

/-- The counters move away from their start only while a byte is sent (R40, R100). -/
theorem StepInvariant.seqEn_of_phase_ne {r : Regs c} (h : StepInvariant r) (hp : r.phase ≠ .setRs) :
    seqEn r = true := by
  have hbusy : r.busy = true := by
    by_contra hb
    exact hp (h.idle_counters (by simpa using hb)).1
  have hrev : r.dcSt ≠ .rev := fun hs => hp (h.rev hs).2.1
  refine (seqEn_iff r).2 ⟨hbusy, ?_⟩
  cases hk : r.kind with
  | none => simp [h.busy_iff.2 hk] at hbusy
  | cmd => exact .inl rfl
  | data => exact .inr (.inl rfl)
  | number => exact .inr (.inr ⟨rfl, (h.number hk).resolve_left hrev⟩)

/-- The tick after the one that raised the enable line lowers it (R105). -/
theorem StepInvariant.lcdE_falls {r : Regs c} (h : StepInvariant r) (he : r.lcdE = true) :
    (unitOfWork r).regs.lcdE = false := by
  have hp := h.strobe.1 he
  obtain ⟨rs, b, -, -, -, -, -, -, -, hel, -⟩ := unitOfWork_of_seqEn (h.seqEn_of_phase_ne (by simp [hp]))
  simp [hel, sequencerStep_lcdE, hp]

/-- Only phase 4 raises the enable line (R105). -/
theorem lcdE_of_unitOfWork_lcdE {r : Regs c} (hp : r.phase ≠ .strobeHigh) (h : (unitOfWork r).regs.lcdE = true) :
    r.lcdE = true := by
  cases he : seqEn r with
  | false =>
    obtain ⟨-, -, -, -, -, -, -, -, hel, -⟩ := unitOfWork_of_not_seqEn he
    exact hel ▸ h
  | true =>
    obtain ⟨rs, b, -, -, -, -, -, -, -, hel, -⟩ := unitOfWork_of_seqEn he
    rw [hel, sequencerStep_lcdE, if_neg hp] at h
    split at h
    · cases h
    · exact h

/-- A tick that starts or ends with the enable line high runs phase 4 or phase 5 (R105). -/
theorem StepInvariant.strobe_phase {r : Regs c} (h : StepInvariant r)
    (he : r.lcdE = true ∨ (unitOfWork r).regs.lcdE = true) : r.phase = .strobeHigh ∨ r.phase = .strobeLow := by
  by_cases hp : r.phase = .strobeHigh
  · exact .inl hp
  · exact .inr (h.strobe.1 (he.elim id (lcdE_of_unitOfWork_lcdE hp)))

/-- Settles O29: phases 4 and 5 write none of the other lines. -/
theorem linesStandStillAroundTheStrobe : Obligations.LinesStandStillAroundTheStrobe := by
  intro i s r o hinv h
  obtain ⟨hr : r = tickRegs i s.regs, -⟩ := exec_next_iff.1 h
  obtain ⟨hrs, hrw, he, hdb⟩ := tickRegs_lines i s.regs
  obtain ⟨hrs', hrw', -, hdb'⟩ := unitOfWork_lines_frame s.regs
  rw [hr, hrs, hrw, he, hdb]
  refine ⟨hinv.lcdE_falls, fun hstrobe => ?_⟩
  have hp := hinv.strobe_phase hstrobe
  refine ⟨hrs' fun hw => ?_, hrw' fun hw => ?_, hdb' fun hw => ?_⟩ <;> simp [hw.2] at hp

end Sys2Proof.Machine
end

section
/-! The ticks a running request has left, through a tick: a busy tick takes one off them, whatever is presented (R136),
none is left with the completion (R140), and an acceptance sets them (R141). The settlements of O34, O35 and O36. -/

namespace Sys2Proof.Machine

variable {c : Config}

/-! ### The measure -/

/-- A busy block runs the sequencer or reverses a number: the states without work are not reached (R40, R100, R152). -/
theorem StepInvariant.seqEn_or_reversal {r : Regs c} (h : StepInvariant r) (hb : r.busy = true) :
    seqEn r = true ∨ r.kind = .number ∧ r.dcSt = .rev := by
  rw [seqEn_iff]
  cases hk : r.kind with
  | none => simp [h.busy_iff.2 hk] at hb
  | cmd => simp [hb]
  | data => simp [hb]
  | number => rcases h.number hk with hs | hs <;> simp [hb, hs]

theorem byteTicksLeft_pos (r : Regs c) : 0 < byteTicksLeft r := by
  unfold byteTicksLeft
  cases r.phase <;> cases r.pass <;> cases c.ifWidth <;> simp [Phase.num]

/-- Nothing is left to do exactly in an idle block (R141). -/
theorem ticksLeft_eq_zero_iff {r : Regs c} (h : StepInvariant r) : ticksLeft r = 0 ↔ r.busy = false := by
  have hbyte := byteTicksLeft_pos r
  rw [h.busy_iff]
  unfold ticksLeft
  cases hk : r.kind with
  | none => simp
  | cmd => simp [hbyte.ne']
  | data => simp [hbyte.ne']
  | number =>
    rcases h.number hk with hs | hs
    · simp [hs, digits_of_pos (ne_zero_iff_toNat.1 (h.rev hs).1)]
    · simp [hs, hbyte.ne']

/-- While the sequencer runs: the byte in progress, and `P` ticks for each digit after the one presented; a SEND has no
digits (R109, R160). -/
theorem ticksLeft_of_seqEn {r : Regs c} (h : StepInvariant r) (he : seqEn r = true) :
    ticksLeft r = byteTicksLeft r + ((digitsLeft r).length - 1) * c.byteTicks := by
  obtain ⟨-, hk | hk | ⟨hk, hs⟩⟩ := (seqEn_iff r).1 he
  · simp [ticksLeft, digitsLeft, hk, h.converter_of_number]
  · simp [ticksLeft, digitsLeft, hk, h.converter_of_number]
  · simp [ticksLeft, hk, hs]

/-- A number between two bytes: a tick for each digit still to be reversed, and `P` for each still to be sent (R160). -/
theorem ticksLeft_between_bytes {r : Regs c} (hc : ConverterInvariant r) (hk : r.kind = .number) (hs : r.dcSt ≠ .idle)
    (hp : r.phase = .setRs) (hq : r.pass = .first) :
    ticksLeft r = (Nat.digits 10 r.dcV.toNat).length + (digitsLeft r).length * c.byteTicks := by
  cases hst : r.dcSt with
  | idle => exact absurd hst hs
  | rev => simp [ticksLeft, hk, hst]
  | emit =>
    obtain ⟨hv, hmore⟩ := hc.emit hst
    simp [ticksLeft, hk, hst, hv, byteTicksLeft_start hp hq, digitsLeft_of_emit hst hmore]
    ring

/-- A reversal tick takes one of the digits still to be reversed, and none of those to be sent (R153, R160). -/
theorem ticksLeft_reversalStep {r : Regs c} (h : StepInvariant r) (hk : r.kind = .number) (hs : r.dcSt = .rev) :
    ticksLeft (reversalStep r) + 1 = ticksLeft r := by
  obtain ⟨-, -, hc⟩ := stepInvariant_iff.1 h
  obtain ⟨hv, hp, hq⟩ := h.rev hs
  have hpos := ne_zero_iff_toNat.1 hv
  obtain ⟨hn, hr, ht⟩ := reversal_bounds hs hc.digits
  obtain ⟨hv', -⟩ := reversalStep_toNat hpos hn hr ht
  have hne : (reversalStep r).dcSt ≠ .idle := by
    rw [reversalStep_dcSt, hs]; split <;> decide
  rw [ticksLeft_between_bytes (hc.reversal hs) hk hne hp hq, ticksLeft_between_bytes hc hk (by simp [hs]) hp hq,
    digitsLeft_reversalStep hc hs, hv', digits_of_pos hpos, List.length_cons]
  omega

/-- The end of a digit's byte, with digits left to send: the next one takes its `P` ticks (R157, R160). -/
theorem ticksLeft_consumeDigit {r : Regs c} (h : StepInvariant r) (he : seqEn r = true) (hk : r.kind = .number)
    (hs : r.dcSt = .emit) (rs : Bool) (b : Byte) (hl : (advance c r.phase r.pass).last = true)
    (hx : exhausted (consumeDigit (sequencerStep rs b r)) = false) :
    ticksLeft (consumeDigit (sequencerStep rs b r)) + 1 = ticksLeft r := by
  obtain ⟨-, -, hc⟩ := stepInvariant_iff.1 h
  obtain ⟨hp, hq⟩ := advance_of_last hl
  rw [ticksLeft_between_bytes ((hc.phase_step rs b).consumption (by simpa using hs) hx) (by simpa using hk)
      (by simp [hs]) (by simpa using hp) (by simpa using hq), ticksLeft_of_seqEn h he,
    (byteTicksLeft_last h.eight_lines).1 hl, digitsLeft_eq_dcDigit_cons hc hs rs b]
  simp [(hc.emit hs).1, Nat.add_comm]

/-- The running request's work takes one tick off it, by what the work is (R136). -/
theorem ticksLeft_unitOfWork {r : Regs c} (h : StepInvariant r) (hb : r.busy = true) :
    ticksLeft (unitOfWork r).regs + 1 = ticksLeft r := by
  obtain ⟨-, -, hc⟩ := stepInvariant_iff.1 h
  have hw := unitOfWork_cases r
  have hnext := unitOfWork_stepInvariant h
  generalize unitOfWork r = w at *
  cases hw with
  | still he hrev => exact absurd (h.seqEn_or_reversal hb) (by simp [he, hrev hb])
  | reversal _ hk hs => exact ticksLeft_reversalStep h hk hs
  | phase rs b he _ _ hl =>
    rw [ticksLeft_of_seqEn hnext (by simpa using he), ticksLeft_of_seqEn h he, digitsLeft_sequencerStep,
      ← byteTicksLeft_step h.eight_lines rs b hl, Nat.add_right_comm]
  | send rs b he _ _ hl hk =>
    have hnone : digitsLeft r = [] := by
      simp [digitsLeft, h.converter_of_number (by rcases hk with hk | hk <;> simp [hk])]
    rw [ticksLeft_of_seqEn h he, hnone, (byteTicksLeft_last h.eight_lines).1 hl]
    simp [ticksLeft]
  | digit rs b he _ _ hl hk hs hx => exact ticksLeft_consumeDigit h he hk hs rs b hl hx
  | lastDigit rs b he _ _ hl hk hs hx =>
    rw [ticksLeft_of_seqEn h he, (byteTicksLeft_last h.eight_lines).1 hl, digitsLeft_eq_dcDigit_cons hc hs rs b,
      digitsLeft_of_exhausted (by simpa using hs) hx]
    simp [ticksLeft]

/-- A running request completes exactly in its last tick (R136, R140). -/
theorem unitOfWork_done_iff {r : Regs c} (h : StepInvariant r) (hb : r.busy = true) :
    (unitOfWork r).done = true ↔ ticksLeft r = 1 := by
  have hidle := ticksLeft_eq_zero_iff (unitOfWork_stepInvariant h)
  have hdrop := ticksLeft_unitOfWork h hb
  constructor
  · intro hd
    have := hidle.2 (unitOfWork_done hd).1
    omega
  · intro hlast
    by_contra hd
    have hslot := (unitOfWork_slot_frame (Bool.eq_false_iff.2 hd)).1
    simp [hslot, hb] at hidle
    omega

/-! ### The tick -/

/-- A request presented to a busy slot that does not complete writes nothing (R131). -/
theorem tickRegs_of_running {r : Regs c} (hb : r.busy = true) (hd : (unitOfWork r).done = false) (i : Instr) :
    tickRegs i r = (unitOfWork r).regs :=
  tickRegs_of_not_accepts (by simp [Accepts, slotFree, hb, hd])

/-- Before its last tick a running request stays, with one tick less to go, whatever is presented (R136). -/
theorem tickRegs_before_last_tick {r : Regs c} (h : StepInvariant r) (hb : r.busy = true) (hl : 1 < ticksLeft r)
    (i : Instr) :
    (unitOfWork r).done = false ∧ StepInvariant (tickRegs i r) ∧ (tickRegs i r).busy = true ∧
      (tickRegs i r).kind = r.kind ∧ ticksLeft (tickRegs i r) + 1 = ticksLeft r := by
  have hd : (unitOfWork r).done = false := by
    rw [Bool.eq_false_iff, ne_eq, unitOfWork_done_iff h hb]
    omega
  obtain ⟨hbusy, hkind⟩ := unitOfWork_slot_frame hd
  rw [tickRegs_of_running hb hd]
  exact ⟨hd, unitOfWork_stepInvariant h, hbusy.trans hb, hkind, ticksLeft_unitOfWork h hb⟩

/-- Settles O34: every busy tick takes one off the measure, and all but the last leave the slot taken. -/
theorem runningRequestCannotBeStopped : Obligations.RunningRequestCannotBeStopped := by
  intro i s r o h hb hexec
  obtain ⟨hr : r = tickRegs i s.regs, rfl⟩ := exec_next_iff.1 hexec
  have hpos := mt (ticksLeft_eq_zero_iff h).1 (by simp [hb])
  refine ⟨Nat.pos_of_ne_zero hpos, unitOfWork_done_iff h hb, fun hl => ?_⟩
  obtain ⟨hd, -, hbusy, hkind, hdrop⟩ := tickRegs_before_last_tick h hb hl i
  have hbyte : (tickRegs i s.regs).byteReg = s.regs.byteReg := by
    rw [tickRegs_of_running hb hd, unitOfWork_byteReg]
  rw [hr]
  exact ⟨hbusy, hkind, hbyte, hdrop, fun hi => by simp [hi, hb, hd, slotFree, verdict]⟩

/-! ### Acceptance -/

@[simp] theorem loadNumber_dcV (v : BitVec c.numW) (r : Regs c) : (loadNumber v r).dcV = v := by
  unfold loadNumber
  split
  · next hv => exact hv.symm
  · rfl

/-- An accepted number takes a tick for each digit reversed, and `P` for each of its numeral (R160). -/
theorem ticksLeft_acceptWrites_writeNumber {v : Nat} (hv : v < 2 ^ c.numW) (r : Regs c) :
    ticksLeft (acceptWrites (.writeNumber v) r) =
      (Nat.digits 10 v).length + (numeral v).length * c.byteTicks := by
  have htoNat : (BitVec.ofNat c.numW v).toNat = v := by rw [BitVec.toNat_ofNat, Nat.mod_eq_of_lt hv]
  rw [acceptWrites, ticksLeft_between_bytes (.load _ _) (by simp) (by rw [loadNumber_dcSt]; split <;> decide)
    (by simp) (by simp), digitsLeft_loadNumber, loadNumber_dcV, htoNat]

/-- A number's digits as R160 counts them: the numeral of 0 has one, which takes no reversal. -/
theorem digits_length_add_numeral_length_mul (v P : Nat) :
    (Nat.digits 10 v).length + (numeral v).length * P =
      if v = 0 then P else (Nat.digits 10 v).length * (1 + P) := by
  by_cases hv : v = 0
  · simp [numeral, hv]
  · simp [numeral, hv, Nat.mul_add]

/-- Settles O35: what an acceptance writes fixes the measure, and an idle NOP leaves it 0. -/
theorem acceptedRequestDurations : Obligations.AcceptedRequestDurations := by
  intro i s r o h hi hexec
  obtain ⟨hr : r = tickRegs i s.regs, rfl⟩ := exec_next_iff.1 hexec
  rw [s.cfg.byteTicks_eq]
  refine ⟨fun hacc => ?_, fun hnop hb => ?_, fun hw => if_pos hw, fun hw hp => ?_, fun hw hp => ?_⟩
  · have ha := verdict_eq_accepted_iff.1 hacc
    rw [hr, tickRegs_of_accepts ha, ← s.cfg.byteTicks_eq]
    cases i with
    | nop => exact absurd rfl ha.1
    | sendCmd b => exact byteTicksLeft_start rfl rfl
    | sendData b => exact byteTicksLeft_start rfl rfl
    | writeNumber v =>
      exact (ticksLeft_acceptWrites_writeNumber (of_decide_eq_true hi) _).trans
        (digits_length_add_numeral_length_mul v _)
  · rw [hr, hnop, tickRegs_of_not_accepts (fun ha => ha.1 rfl), unitOfWork_of_idle hb]
    exact (ticksLeft_eq_zero_iff h).2 hb
  · simp [hw, hp, Pass2Entry.num]
  · simp [hw, hp, Pass2Entry.num]

/-! ### Runs without a reset -/

/-- A host that presents no reset in the next ticks presents none in this one. -/
theorem NoReset.head {k : Nat} {s : State} (h : NoReset (k + 1) s) : (nextInput s).rst = false := by
  unfold nextInput
  cases hin : s.inputs with
  | nil => rfl
  | cons x xs => exact h x (by simp [hin])

/-- Nor in the ticks after this one. -/
theorem NoReset.tail {k : Nat} {s : State} (h : NoReset (k + 1) s) : NoReset k (dropInput s) := by
  intro x (hx : x ∈ s.inputs.tail.take k)
  have htake : s.inputs.tail.take k = (s.inputs.take (k + 1)).tail := by
    simp [← List.drop_one, List.drop_take]
  exact h x (List.mem_of_mem_tail (htake ▸ hx))

/-- A tick without a reset runs the request presented in it. -/
theorem step_eq_afterTick {s : State} (h : (nextInput s).rst = false) :
    step s = .next (afterTick (decode (nextInput s).word) (dropInput s)) :=
  (step_of_request h).trans (exec_eq_afterTick _ _)

/-- Over the ticks a running request has left, `done` comes with the last of them only (R140). -/
theorem run_done_iff_last_tick (k : Nat) {s t : State} (h : StepInvariant s.regs) (hb : s.regs.busy = true)
    (hreset : NoReset (k + 1) s) (hk : k + 1 ≤ ticksLeft s.regs)
    (hrun : Host.Core.run Sys2Proof.core (k + 1) s = .next t) :
    t.out.done = true ↔ k + 1 = ticksLeft s.regs := by
  induction k generalizing s with
  | zero =>
    rw [run_succ (step_eq_afterTick hreset.head)] at hrun
    cases hrun
    exact (unitOfWork_done_iff h hb).trans eq_comm
  | succ k ih =>
    rw [run_succ (step_eq_afterTick hreset.head)] at hrun
    obtain ⟨-, hinv, hbusy, -, hdrop⟩ :=
      tickRegs_before_last_tick h hb (by omega) (decode (nextInput s).word)
    have hle : k + 1 ≤ ticksLeft (tickRegs (decode (nextInput s).word) s.regs) := by omega
    have hlast : t.out.done = true ↔ k + 1 = ticksLeft (tickRegs (decode (nextInput s).word) s.regs) :=
      ih (s := afterTick _ (dropInput s)) hinv hbusy hreset.tail hle hrun
    rw [hlast]
    omega

/-- Settles O36, over the ticks a running request has left; a completion is the end of a running request's byte. -/
theorem exactlyOneCompletion : Obligations.ExactlyOneCompletion := by
  refine ⟨fun s t k h hb hreset hk hle hrun => ?_, fun i s r o hexec hd => ?_⟩
  · obtain ⟨k, rfl⟩ := Nat.exists_eq_add_of_le' hk
    exact run_done_iff_last_tick k h hb (fun x hx => hreset x (List.take_subset_take_left _ hle hx)) hle hrun
  · obtain ⟨-, rfl⟩ := exec_next_iff.1 hexec
    obtain ⟨-, -, -, -, hbyte, hb, hk⟩ := unitOfWork_done hd
    exact ⟨hb, hk, hbyte⟩

end Sys2Proof.Machine
end

section
/-! What a tick does with the request presented in it: the acceptance's writes, register by register, the rejection, and
the completing tick. The settlements of O14 to O19, O32 and O33. -/

namespace Sys2Proof.Machine

variable {c : Config}

/-! ### The acceptance's writes -/

/-- The converter's load written out (R150), for a value that fits the operand field. -/
theorem loadNumber_ofNat {v : Nat} (hv : v < 2 ^ c.numW) (r : Regs c) :
    loadNumber (BitVec.ofNat c.numW v) r = { r with
      dcSt := if v = 0 then .emit else .rev
      dcV := BitVec.ofNat c.numW v
      dcRev := 0#_
      dcTz := if v = 0 then 1#_ else 0#_ } := by
  by_cases h : v = 0
  · subst h
    rw [loadNumber_zero, narrow_of_lt c.one_lt_tzW]
    rfl
  · have hne : BitVec.ofNat c.numW v ≠ 0#_ := by
      rw [ne_zero_iff_toNat, BitVec.toNat_ofNat, Nat.mod_eq_of_lt hv]
      omega
    rw [loadNumber_of_ne_zero hne, if_neg h, if_neg h]
    rfl

/-- An acceptance takes the slot, under the request's own code (R75, R130). -/
theorem acceptWrites_slot {i : Instr} (hi : i ≠ .nop) (r : Regs c) :
    (acceptWrites i r).busy = true ∧ (acceptWrites i r).kind.code = opcode i := by
  cases i with
  | nop => exact absurd rfl hi
  | sendCmd b => exact ⟨rfl, rfl⟩
  | sendData b => exact ⟨rfl, rfl⟩
  | writeNumber v => simp [acceptWrites, Kind.code, opcode]

/-- Settles O18: the tick's registers are the acceptance's writes over those of the NOP tick. -/
theorem acceptedExactlyWhenFree : Obligations.AcceptedExactlyWhenFree := by
  intro i s n o hi hwf hnop
  obtain ⟨rfl, rfl⟩ := execNop_next_iff.1 hnop
  refine ⟨tickRegs i s.regs, _, exec_eq i s, ?_, fun hacc => ?_⟩
  · rw [verdict_eq_accepted_iff, Accepts, slotFree_iff]
    exact and_iff_right hi
  · rw [tickRegs_of_accepts (verdict_eq_accepted_iff.1 hacc)]
    refine ⟨?_, (acceptWrites_slot hi _).2⟩
    cases i with
    | nop => rfl
    | sendCmd b => rfl
    | sendData b => rfl
    | writeNumber v => exact loadNumber_ofNat (of_decide_eq_true hwf) _

/-! ### The idle block -/

/-- An idle block accepts every request but a NOP, and does no other work (R130). -/
theorem exec_of_idle (i : Instr) (hi : i ≠ .nop) {s : State} (hb : s.regs.busy = false) :
    exec i s = .next { s with regs := acceptWrites i s.regs, out := ⟨.accepted, false, false⟩ } := by
  rw [exec_eq, unitOfWork_of_idle hb, if_neg hi, hb]
  rfl

/-- Settles O15: an idle block's acceptance. -/
theorem idleBlockAcceptsSendCmd : Obligations.IdleBlockAcceptsSendCmd :=
  fun b _ hb => exec_of_idle (.sendCmd b) nofun hb

/-- Settles O16: an idle block's acceptance. -/
theorem idleBlockAcceptsSendData : Obligations.IdleBlockAcceptsSendData :=
  fun b _ hb => exec_of_idle (.sendData b) nofun hb

/-- Settles O17: the acceptance's writes are the converter's load, written out. -/
theorem idleBlockAcceptsWriteNumber : Obligations.IdleBlockAcceptsWriteNumber := by
  intro v s hv hb
  rw [exec_of_idle (.writeNumber v) nofun hb, acceptWrites, loadNumber_ofNat hv]
  rfl

/-- Settles O14: a NOP tick is the running request's work, which is none in an idle block. -/
theorem nopWritesNothing : Obligations.NopWritesNothing := by
  refine ⟨fun s hb => ?_, fun s _ => execNop_next_iff.2 ⟨rfl, rfl⟩, fun s r o hexec hd => ?_,
    fun _ => decode_append_nop⟩
  · exact execNop_next_iff.2 (by rw [unitOfWork_of_idle hb]; exact ⟨rfl, rfl⟩)
  · obtain ⟨rfl, rfl⟩ := execNop_next_iff.1 hexec
    exact (unitOfWork_done hd).1

/-! ### The busy block -/

/-- Settles O19: without an acceptance a tick's registers are the NOP tick's. -/
theorem rejectedRequestWritesNothing : Obligations.RejectedRequestWritesNothing := by
  intro i s n o hi hnop hb hd
  obtain ⟨rfl, rfl⟩ := execNop_next_iff.1 hnop
  replace hd : (unitOfWork s.regs).done = false := hd
  exact exec_next_iff.2 ⟨(tickRegs_of_running hb hd i).symm, by simp [hi, hb, hd, slotFree, verdict]⟩

/-- A SEND's byte is all of its work (R138). -/
theorem unitOfWork_done_of_send {r : Regs c} (hk : r.kind = .cmd ∨ r.kind = .data) :
    (unitOfWork r).done = (unitOfWork r).byteDone := by
  have hw := unitOfWork_cases r
  generalize unitOfWork r = w at *
  cases hw with
  | still => rfl
  | reversal => rfl
  | phase => rfl
  | send => rfl
  | digit _ _ _ _ _ _ hnum => simp [hnum] at hk
  | lastDigit => rfl

/-- Settles O32: `done` and `byte_done` are the work's, whatever is presented. -/
theorem sendCompletesWithItsByte : Obligations.SendCompletesWithItsByte := by
  intro i s r o hexec hk
  obtain ⟨-, rfl⟩ := exec_next_iff.1 hexec
  exact unitOfWork_done_of_send hk

/-- Settles O33: the completion leaves the slot idle, and an acceptance in its tick takes it again. -/
theorem terminalProtocol : Obligations.TerminalProtocol := by
  intro i s r o h hexec hd
  obtain ⟨hr : r = tickRegs i s.regs, rfl⟩ := exec_next_iff.1 hexec
  obtain ⟨hb, hk, -, -, hbyte, -⟩ := unitOfWork_done hd
  obtain ⟨hp, hq⟩ := tickRegs_counters_of_byteDone hbyte i
  refine hr ▸ ⟨hp, hq, fun hi => ?_, fun hi => ?_⟩
  · rw [hi, tickRegs_of_not_accepts fun ha => ha.1 rfl]
    exact ⟨hb, hk, ((unitOfWork_stepInvariant h).idle_counters hb).2.2⟩
  · rw [tickRegs_of_accepts ⟨hi, slotFree_iff.2 (.inr hd)⟩]
    exact acceptWrites_slot hi _

end Sys2Proof.Machine
end

section
/-! What the display latches while a byte is sent: one latch a pass, from lines that carry the byte (R52, R57, R184).
The settlement of O45. -/

namespace Sys2Proof.Machine

variable {c : Config}

/-! ### The latch of a tick -/

/-- What the falling enable line makes the display take from the registers at the start of the tick (R57, R105). -/
def strobeLatch (r : Regs c) : Option Latch :=
  if r.phase = .strobeLow then some ⟨r.lcdRs, r.lcdDb.setWidth 8⟩ else none

theorem strobeLatch_of_ne {r : Regs c} (hp : r.phase ≠ .strobeLow) : strobeLatch r = none := if_neg hp

theorem latchOf_of_no_reset {s : State} (h : (nextInput s).rst = false) (t : State) :
    latchOf s t = if s.regs.lcdE && !t.regs.lcdE then some ⟨t.regs.lcdRs, t.regs.lcdDb.setWidth 8⟩ else none := by
  simp [latchOf, h]

/-- The display latches in phase 5 and in no other tick: the enable line falls there, and the other lines stand still
(R105). -/
theorem latchOf_afterTick {s : State} (h : StepInvariant s.regs) (hrst : (nextInput s).rst = false) (i : Instr) :
    latchOf s (afterTick i (dropInput s)) = strobeLatch s.regs := by
  obtain ⟨hrs, -, he, hdb⟩ := tickRegs_lines i s.regs
  obtain ⟨hrs', -, -, hdb'⟩ := unitOfWork_lines_frame s.regs
  rw [latchOf_of_no_reset hrst]
  show (if s.regs.lcdE && !(tickRegs i s.regs).lcdE then
    some (Latch.mk (tickRegs i s.regs).lcdRs ((tickRegs i s.regs).lcdDb.setWidth 8)) else none) = strobeLatch s.regs
  by_cases hp : s.regs.phase = .strobeLow
  · have hhigh := h.strobe.2 hp
    rw [hrs, he, hdb, h.lcdE_falls hhigh, hrs' (by simp [hp]), hdb' (by simp [hp])]
    simp [strobeLatch, hp, hhigh]
  · have hlow : s.regs.lcdE = false := Bool.eq_false_iff.2 (mt h.strobe.1 hp)
    simp [strobeLatch_of_ne hp, hlow]

/-! ### The latches of a byte -/

/-- The latch of one pass of a byte (R81, R184). -/
def passLatch (w : IfWidth) (rs : Bool) (b : Byte) (q : Pass) : Latch := ⟨rs, (sel w b q).setWidth 8⟩

/-- The latches from a pass of a byte on to the byte's end: with 4 lines the first pass's is followed by the second's
(R52, R184). -/
def byteLatches (w : IfWidth) (rs : Bool) (b : Byte) (q : Pass) : List Latch :=
  if w = .four ∧ q = .first then [passLatch w rs b .first, passLatch w rs b .second] else [passLatch w rs b q]

/-- A nibble latched from 4 lines is the nibble. -/
theorem extractLsb'_setWidth_nibble (x : BitVec 4) : (x.setWidth 8).extractLsb' 0 4 = x := by
  rw [← BitVec.setWidth_eq_extractLsb' (by decide), BitVec.setWidth_setWidth_of_le _ (by decide), BitVec.setWidth_eq]

/-- A byte is its high nibble before its low one. -/
theorem nibbles_append (b : Byte) : b.extractLsb' 4 4 ++ b.extractLsb' 0 4 = b :=
  (BitVec.extractLsb'_append_extractLsb'_eq_extractLsb' rfl).trans BitVec.extractLsb'_eq_self

/-- A whole byte's latches make the byte (R184). -/
theorem receivedBytes_byteLatches (w : IfWidth) (rs : Bool) (b : Byte) :
    receivedBytes w (byteLatches w rs b .first) = [⟨rs, b⟩] := by
  cases w with
  | eight => simp [byteLatches, receivedBytes, passLatch, sel, IfWidth.bits]
  | four =>
    show [Latch.mk rs (((b.extractLsb' 4 4).setWidth 8).extractLsb' 0 4 ++
      ((b.extractLsb' 0 4).setWidth 8).extractLsb' 0 4)] = _
    rw [extractLsb'_setWidth_nibble, extractLsb'_setWidth_nibble, nibbles_append]

/-! ### The ticks of a byte -/

/-- A byte is being sent, and the lines carry what its past phases wrote: the register-select level from phase 0 on, the
data of the pass from phase 3 on (R102). -/
structure SendsOverLines (rs : Bool) (b : Byte) (r : Regs c) : Prop where
  inv : StepInvariant r
  enabled : seqEn r = true
  level : rsOf r.kind = some rs
  byte : txByte r = some b
  rs_line : r.phase ≠ .setRs → r.lcdRs = rs
  data_lines : r.phase = .strobeHigh ∨ r.phase = .strobeLow → r.lcdDb = sel c.ifWidth b r.pass

/-- After phase 5 the counters are back before the strobe (R106). -/
theorem advance_strobeLow_phase (q : Pass) :
    ¬((advance c .strobeLow q).phase = .strobeHigh ∨ (advance c .strobeLow q).phase = .strobeLow) := by
  unfold advance
  cases c.ifWidth <;> cases q <;> cases c.pass2Entry <;> simp [pass2Phase]

section
variable {rs : Bool} {b : Byte} {r : Regs c}

/-- At the start of a byte the lines have nothing to carry yet. -/
theorem SendsOverLines.of_start (hinv : StepInvariant r) (he : seqEn r = true) (hrs : rsOf r.kind = some rs)
    (hb : txByte r = some b) (hp : r.phase = .setRs) : SendsOverLines rs b r :=
  ⟨hinv, he, hrs, hb, by simp [hp], by simp [hp]⟩

/-- In phase 5 the display takes the pass's part of the byte. -/
theorem SendsOverLines.strobeLatch_of_strobeLow (h : SendsOverLines rs b r) (hp : r.phase = .strobeLow) :
    strobeLatch r = some (passLatch c.ifWidth rs b r.pass) := by
  rw [strobeLatch, if_pos hp, h.rs_line (by simp [hp]), h.data_lines (.inr hp)]
  rfl

/-- Before the byte's final phase the work is one sequencer step with the byte and its level (R106). -/
theorem SendsOverLines.unitOfWork_eq (h : SendsOverLines rs b r) (hl : (advance c r.phase r.pass).last = false) :
    unitOfWork r = ⟨sequencerStep rs b r, false, false⟩ := by
  obtain ⟨hb, hrun⟩ := (seqEn_iff r).1 h.enabled
  have hnot : ¬(r.kind = .number ∧ r.dcSt = .rev) := by
    rintro ⟨hk, hs⟩
    simp [hk, hs] at hrun
  rw [← sequencerWork_of_not_last hl]
  simp [unitOfWork, hb, hnot, h.level, h.byte]

/-- So is the tick, whatever is presented (R131). -/
theorem SendsOverLines.tickRegs_eq (h : SendsOverLines rs b r) (hl : (advance c r.phase r.pass).last = false)
    (i : Instr) : tickRegs i r = sequencerStep rs b r := by
  rw [tickRegs_of_running ((seqEn_iff r).1 h.enabled).1 (by rw [h.unitOfWork_eq hl]), h.unitOfWork_eq hl]

/-- After it the lines carry what one phase more wrote (R102). -/
theorem SendsOverLines.phase_step (h : SendsOverLines rs b r) (hl : (advance c r.phase r.pass).last = false) :
    SendsOverLines rs b (sequencerStep rs b r) := by
  have hinv := unitOfWork_stepInvariant h.inv
  rw [h.unitOfWork_eq hl] at hinv
  refine ⟨hinv, by simpa using h.enabled, by simpa using h.level, by simpa using h.byte, fun _ => ?_, ?_⟩
  · rw [sequencerStep_lcdRs]
    split
    · rfl
    · next hne => exact h.rs_line hne
  · rw [sequencerStep_lcdDb, sequencerStep_phase, sequencerStep_pass]
    cases hp : r.phase with
    | presentData => exact fun _ => rfl
    | strobeHigh => exact fun _ => h.data_lines (.inl hp)
    | strobeLow => exact fun hnext => absurd hnext (advance_strobeLow_phase _)
    | _ => simp [advance]

/-- The latch of a tick inside the byte comes before those of the passes after it (R184). -/
theorem SendsOverLines.byteLatches_inner_tick (h : SendsOverLines rs b r)
    (hl : (advance c r.phase r.pass).last = false) :
    (strobeLatch r).toList ++ byteLatches c.ifWidth rs b (sequencerStep rs b r).pass =
      byteLatches c.ifWidth rs b r.pass := by
  rw [sequencerStep_pass]
  by_cases hp : r.phase = .strobeLow
  · have hfirst : c.ifWidth = .four ∧ r.pass = .first := by
      rw [Bool.eq_false_iff, ne_eq, advance_last_iff] at hl
      revert hl
      cases c.ifWidth <;> cases r.pass <;> simp [hp]
    obtain ⟨hw, hq⟩ := hfirst
    rw [h.strobeLatch_of_strobeLow hp, hp, hq, advance_strobeLow_four_first hw]
    simp [byteLatches, hw]
  · have hlt : r.phase.num < 5 := by_contra fun hge => hp (Phase.eq_strobeLow_of_not_lt hge)
    rw [strobeLatch_of_ne hp, (advance_of_lt hlt _).2.1]
    rfl

/-- The latch of the final tick is the last (R107, R184). -/
theorem SendsOverLines.byteLatches_final_tick (h : SendsOverLines rs b r)
    (hl : (advance c r.phase r.pass).last = true) :
    (strobeLatch r).toList = byteLatches c.ifWidth rs b r.pass := by
  obtain ⟨hp, hfinal⟩ := (advance_last_iff _ _).1 hl
  have hnot : ¬(c.ifWidth = .four ∧ r.pass = .first) := by
    rintro ⟨hw, hq⟩
    simp [hw, hq] at hfinal
  rw [h.strobeLatch_of_strobeLow hp, byteLatches, if_neg hnot]
  rfl

end

/-- Over the ticks a byte has left the display latches what is left of it, whatever is presented (R109, R184). -/
theorem SendsOverLines.latches_eq (k : Nat) {s : State} {rs : Bool} {b : Byte} (h : SendsOverLines rs b s.regs)
    (hleft : byteTicksLeft s.regs = k + 1) (hreset : NoReset (k + 1) s) :
    latches (k + 1) s = byteLatches s.cfg.ifWidth rs b s.regs.pass := by
  induction k generalizing s with
  | zero =>
    have hl := (byteTicksLeft_last h.inv.eight_lines).2 hleft
    rw [latches_succ (step_eq_afterTick hreset.head), latchOf_afterTick h.inv hreset.head, h.byteLatches_final_tick hl]
    exact List.append_nil _
  | succ k ih =>
    have hl : (advance s.cfg s.regs.phase s.regs.pass).last = false := by
      rw [Bool.eq_false_iff, ne_eq, byteTicksLeft_last h.inv.eight_lines]
      omega
    have hnext : byteTicksLeft (sequencerStep rs b s.regs) = k + 1 := by
      have := byteTicksLeft_step h.inv.eight_lines rs b hl
      omega
    have hregs : (afterTick (decode (nextInput s).word) (dropInput s)).regs = sequencerStep rs b s.regs :=
      h.tickRegs_eq hl _
    have hrest := ih (s := afterTick (decode (nextInput s).word) (dropInput s)) (hregs ▸ h.phase_step hl)
      (by rw [hregs]; exact hnext) hreset.tail
    rw [latches_succ (step_eq_afterTick hreset.head), latchOf_afterTick h.inv hreset.head, hrest, hregs]
    exact h.byteLatches_inner_tick hl

/-! ### The SEND presented to an idle block -/

/-- A SEND of a byte by its register-select level (R134, R135). -/
def sendOf (rs : Bool) (b : Byte) : Instr := if rs then .sendData b else .sendCmd b

/-- Accepted by an idle block, it starts its byte, and has the `P` ticks of it to go (R109, R130). -/
theorem SendsOverLines.of_accepted {r : Regs c} (h : StepInvariant r) (hb : r.busy = false) (rs : Bool) (b : Byte) :
    SendsOverLines rs b (tickRegs (sendOf rs b) r) ∧ (tickRegs (sendOf rs b) r).phase = .setRs ∧
      (tickRegs (sendOf rs b) r).pass = .first ∧ ticksLeft (tickRegs (sendOf rs b) r) = c.byteTicks := by
  have htick : tickRegs (sendOf rs b) r = acceptWrites (sendOf rs b) r := by
    have hfree : slotFree r.busy (unitOfWork r).done = true := slotFree_iff.2 (.inl hb)
    rw [tickRegs, if_pos hfree, unitOfWork_of_idle hb]
  have hinv := acceptWrites_stepInvariant h hb (sendOf rs b)
  rw [htick]
  cases rs with
  | false => exact ⟨.of_start hinv rfl rfl rfl rfl, rfl, rfl, byteTicksLeft_start rfl rfl⟩
  | true => exact ⟨.of_start hinv rfl rfl rfl rfl, rfl, rfl, byteTicksLeft_start rfl rfl⟩

/-- Every run ends in a state. -/
theorem exists_run (k : Nat) {s : State} (h : StepInvariant s.regs) :
    ∃ t, Host.Core.run Sys2Proof.core k s = .next t := by
  induction k generalizing s with
  | zero => exact ⟨s, rfl⟩
  | succ k ih =>
    obtain ⟨u, hu, hinv⟩ := step_stepInvariant h
    rw [run_succ hu]
    exact ih hinv

/-- From its start a request of one byte completes in `P` ticks, and the display receives the byte (R109, R184). -/
theorem SendsOverLines.run_from_start {s : State} {rs : Bool} {b : Byte} (h : SendsOverLines rs b s.regs)
    (hp : s.regs.phase = .setRs) (hq : s.regs.pass = .first) (hticks : ticksLeft s.regs = s.cfg.byteTicks)
    (hreset : NoReset s.cfg.byteTicks s) :
    (∃ t, Host.Core.run Sys2Proof.core s.cfg.byteTicks s = .next t ∧ t.out.done = true) ∧
    receivedBytes s.cfg.ifWidth (latches s.cfg.byteTicks s) = [⟨rs, b⟩] := by
  have hP := s.cfg.byteTicks_pos
  have hbyte := byteTicksLeft_start hp hq
  obtain ⟨k, hk⟩ : ∃ k, s.cfg.byteTicks = k + 1 := Nat.exists_eq_add_of_le' (by omega)
  rw [hk] at hticks hbyte hreset ⊢
  obtain ⟨t, hrun⟩ := exists_run (k + 1) h.inv
  have hbusy := ((seqEn_iff _).1 h.enabled).1
  refine ⟨⟨t, hrun, (run_done_iff_last_tick k h.inv hbusy hreset hticks.ge hrun).2 hticks.symm⟩, ?_⟩
  rw [h.latches_eq k hbyte hreset, hq, receivedBytes_byteLatches]

/-- Settles O45: the accepting tick latches nothing, and the byte's `P` ticks after it make the display receive it. -/
theorem sentByteReachesTheDisplay : Obligations.SentByteReachesTheDisplay := by
  intro s b rs h hb hreset (hi : decode (nextInput s).word = sendOf rs b)
  rw [Nat.add_comm] at hreset ⊢
  have hstep := step_eq_afterTick hreset.head
  rw [hi] at hstep
  have hlatch := latchOf_afterTick h hreset.head (sendOf rs b)
  rw [strobeLatch_of_ne (by simp [h.idle_counters hb])] at hlatch
  rw [run_succ hstep, latches_succ hstep, hlatch]
  obtain ⟨hsends, hp, hq, hticks⟩ := SendsOverLines.of_accepted h hb rs b
  exact SendsOverLines.run_from_start (s := afterTick (sendOf rs b) (dropInput s)) hsends hp hq hticks hreset.tail

end Sys2Proof.Machine
end

section
/-! The reversal of a number (R153, R154): each step exact and inside its registers, and a value's whole reversal. The
digits left do not change while a number is reversed, so its end is read off them. The settlements of O38, O39 and O42. -/

namespace Sys2Proof.Machine

variable {c : Config}

/-! ### One step -/

/-- A reversal step's results fit their registers and are written exactly (R153, R158). -/
theorem ConverterInvariant.reversal_exact {r : Regs c} (h : ConverterInvariant r) (hs : r.dcSt = .rev) :
    (reversalStep r).dcV.toNat = r.dcV.toNat / 10 ∧
    (reversalStep r).dcRev.toNat = r.dcRev.toNat * 10 + r.dcV.toNat % 10 ∧
    (reversalStep r).dcTz.toNat = r.dcTz.toNat + (if r.dcRev = 0#_ ∧ r.dcV.toNat % 10 = 0 then 1 else 0) := by
  obtain ⟨hn, hr, ht⟩ := reversal_bounds hs h.digits
  exact reversalStep_toNat (ne_zero_iff_toNat.1 (h.rev hs)) hn hr ht

/-- A reversal step takes one digit off the value (R153). -/
theorem ConverterInvariant.digits_length_reversalStep {r : Regs c} (h : ConverterInvariant r) (hs : r.dcSt = .rev) :
    (Nat.digits 10 (reversalStep r).dcV.toNat).length + 1 = (Nat.digits 10 r.dcV.toNat).length := by
  rw [(h.reversal_exact hs).1, digits_of_pos (ne_zero_iff_toNat.1 (h.rev hs)), List.length_cons]

/-- The reversal ends exactly with the value's last digit (R153, R154). -/
theorem ConverterInvariant.reversalStep_emit_iff {r : Regs c} (h : ConverterInvariant r) (hs : r.dcSt = .rev) :
    (reversalStep r).dcSt = .emit ↔ (Nat.digits 10 r.dcV.toNat).length = 1 := by
  have hlast : r.dcV.toNat / 10 = 0 ↔ (Nat.digits 10 r.dcV.toNat).length = 1 := by
    rw [← h.digits_length_reversalStep hs, (h.reversal_exact hs).1]
    simp [Nat.digits_eq_nil_iff_eq_zero]
  rw [reversalStep_dcSt, hs, ← hlast]
  by_cases h0 : r.dcV.toNat / 10 = 0 <;> simp [h0]

/-- Settles O38: the NOP tick of a number in REV is the reversal step. -/
theorem reversalStepTakesOneDigit : Obligations.ReversalStepTakesOneDigit := by
  intro s h hb hk hs
  obtain ⟨-, -, hc⟩ := stepInvariant_iff.1 h
  obtain ⟨hv, hrev, htz⟩ := hc.reversal_exact hs
  refine ⟨reversalStep s.regs, execNop_next_iff.2 ?_, hrev, htz, hv, ?_, hc.digits_length_reversalStep hs,
    hc.reversalStep_emit_iff hs, rfl, rfl, rfl, rfl, rfl, rfl, rfl, rfl, rfl⟩
  · rw [unitOfWork_of_rev hb hk hs]
    exact ⟨rfl, rfl⟩
  · rw [reversalStep_dcSt, hs]

/-- Settles O42: an exact result is a register's value, which is below the register's bound. -/
theorem converterNeverOverflows : Obligations.ConverterNeverOverflows := by
  intro s h
  obtain ⟨-, -, hc⟩ := stepInvariant_iff.1 h
  refine ⟨fun hs => ?_, fun hs hrev => ?_, fun b hb hk => ?_⟩
  · obtain ⟨-, hrev, htz⟩ := hc.reversal_exact hs
    refine ⟨hrev ▸ (reversalStep s.regs).dcRev.isLt, fun h0 hd => ?_⟩
    rw [if_pos ⟨h0, hd⟩] at htz
    exact htz ▸ (reversalStep s.regs).dcTz.isLt
  · exact ne_zero_iff_toNat.1 ((hc.emit hs).2.resolve_left (not_not.2 hrev))
  · have hs : s.regs.dcSt = .emit := by
      rcases h.number hk with hs | hs
      · simp [txByte, hk, hs] at hb
      · exact hs
    obtain rfl : digitByte (dcDigit s.regs) = b := by simpa [txByte_of_emit hk hs] using hb
    have hd := dcDigit_lt s.regs
    rw [digitByte_toNat hd]
    omega

/-! ### A whole reversal -/

/-- A number is being reversed. -/
structure Reversing (r : Regs c) : Prop where
  busy : r.busy = true
  number : r.kind = .number
  rev : r.dcSt = .rev
  conv : ConverterInvariant r

/-- The tick is the reversal step, whatever is presented (R131, R153). -/
theorem Reversing.afterTick_regs {s : State} (h : Reversing s.regs) (i : Instr) :
    (afterTick i (dropInput s)).regs = reversalStep s.regs := by
  have hwork := unitOfWork_of_rev h.busy h.number h.rev
  exact (tickRegs_of_running h.busy (by rw [hwork]) i).trans (by rw [hwork])

/-- With more than one digit to go the reversal goes on. -/
theorem Reversing.step {r : Regs c} (h : Reversing r) (hmore : (Nat.digits 10 r.dcV.toNat).length ≠ 1) :
    Reversing (reversalStep r) := by
  refine ⟨h.busy, h.number, ?_, h.conv.reversal h.rev⟩
  have hst := mt (h.conv.reversalStep_emit_iff h.rev).1 hmore
  rw [reversalStep_dcSt, h.rev] at hst ⊢
  exact if_neg fun h0 => hst (if_pos h0)

/-- After one tick for each of its digits a number is in EMIT, with the digits to send that it had before (R154). -/
theorem Reversing.run_to_emit (k : Nat) {s t : State} (h : Reversing s.regs)
    (hlen : (Nat.digits 10 s.regs.dcV.toNat).length = k + 1) (hreset : NoReset (k + 1) s)
    (hrun : Host.Core.run Sys2Proof.core (k + 1) s = .next t) :
    t.regs.dcSt = .emit ∧ ConverterInvariant t.regs ∧ digitsLeft t.regs = digitsLeft s.regs := by
  induction k generalizing s with
  | zero =>
    rw [run_succ (step_eq_afterTick hreset.head)] at hrun
    cases hrun
    rw [h.afterTick_regs]
    exact ⟨(h.conv.reversalStep_emit_iff h.rev).2 hlen, h.conv.reversal h.rev, digitsLeft_reversalStep h.conv h.rev⟩
  | succ k ih =>
    rw [run_succ (step_eq_afterTick hreset.head)] at hrun
    have hnext := h.step (by omega)
    have hlen' := Nat.succ.inj ((h.conv.digits_length_reversalStep h.rev).trans hlen)
    rw [← digitsLeft_reversalStep h.conv h.rev]
    rw [← h.afterTick_regs (decode (nextInput s).word)] at hnext hlen' ⊢
    exact ih hnext hlen' hreset.tail hrun

/-- What the digits left say of the accumulator and the zero counter at the end of the reversal: `v` read backwards is the
accumulator's numeral followed by the zeros counted, and a numeral does not end in the digit 0 of highest place (R154). -/
theorem digits_split_at_trailing_zeros {a z v : Nat}
    (h : Nat.digits 10 a ++ List.replicate z 0 = (Nat.digits 10 v).reverse) :
    z = ((Nat.digits 10 v).takeWhile (· = 0)).length ∧
    Nat.digits 10 a = ((Nat.digits 10 v).dropWhile (· = 0)).reverse := by
  have hv : Nat.digits 10 v = List.replicate z 0 ++ (Nat.digits 10 a).reverse := by
    rw [← List.reverse_inj, ← h]; simp
  have hzeros : ∀ d ∈ List.replicate z 0, decide (d = 0) = true := by simp
  rw [hv, List.takeWhile_append_of_pos hzeros, List.dropWhile_append_of_pos hzeros]
  rcases Nat.eq_zero_or_pos a with rfl | ha
  · simp
  · have hne := Nat.digits_ne_nil_iff_ne_zero (b := 10).2 ha.ne'
    have htop := Nat.getLast_digit_ne_zero 10 ha.ne'
    rw [← List.dropLast_append_getLast hne]
    simp [htop]

/-- A number just loaded is its own load (R150). -/
theorem loadNumber_self {r : Regs c} (hs : r.dcSt = .rev) (hv : r.dcV ≠ 0#_) (hrev : r.dcRev = 0#_)
    (htz : r.dcTz = 0#_) : loadNumber r.dcV r = r := by
  rw [loadNumber_of_ne_zero hv]
  cases r
  simp_all [loadConverter]

/-- Settles O39: at its load the value's numeral is left to send, and at the end of the reversal still. -/
theorem reversalLeavesTheReversedNumeral : Obligations.ReversalLeavesTheReversedNumeral := by
  rintro s t _ hpos - hb hk hs rfl hrev htz hreset hrun
  have hload := loadNumber_self hs (ne_zero_iff_toNat.2 hpos) hrev htz
  have hc : ConverterInvariant s.regs := hload ▸ .load _ _
  have hleft : digitsLeft s.regs = (Nat.digits 10 s.regs.dcV.toNat).reverse := by
    rw [← hload, digitsLeft_loadNumber, hload, numeral, if_neg hpos.ne']
  have hlen := congrArg List.length (digits_of_pos hpos)
  rw [List.length_cons] at hlen
  rw [hlen] at hreset hrun
  obtain ⟨hst, hct, hdigits⟩ := Reversing.run_to_emit _ ⟨hb, hk, hs, hc⟩ hlen hreset hrun
  refine ⟨hst, eq_zero_iff_toNat.1 (hct.emit hst).1, digits_split_at_trailing_zeros ?_⟩
  rw [← hleft, ← hdigits, digitsLeft, hst]

end Sys2Proof.Machine
end

section
/-! The end of a digit's byte (R156, R157): the digit's consumption, and the number's completion with the last one. The
settlements of O40 and O41. -/

namespace Sys2Proof.Machine

variable {c : Config}

/-- A running number is busy (R40). -/
theorem StepInvariant.busy_of_number {r : Regs c} (h : StepInvariant r) (hk : r.kind = .number) : r.busy = true := by
  have hb := mt h.busy_iff.1 (by simp [hk])
  simpa using hb

/-- A converter in EMIT is a running number's (R40). -/
theorem StepInvariant.number_of_emit {r : Regs c} (h : StepInvariant r) (hs : r.dcSt = .emit) :
    r.busy = true ∧ r.kind = .number := by
  have hk : r.kind = .number := by
    by_contra hne
    simp [h.converter_of_number hne] at hs
  exact ⟨h.busy_of_number hk, hk⟩

/-- When a byte ends the running request's work leaves the counters at their start (R108). -/
theorem unitOfWork_counters_of_byteDone {r : Regs c} (h : (unitOfWork r).byteDone = true) :
    (unitOfWork r).regs.phase = .setRs ∧ (unitOfWork r).regs.pass = .first := by
  rw [← tickRegs_of_not_accepts (i := .nop) fun ha => ha.1 rfl]
  exact tickRegs_counters_of_byteDone h .nop

/-- The tick in which a digit's byte completes: the digit is consumed beside the phase's line write, and the request
completes if that was the last (R156, R157). -/
theorem StepInvariant.unitOfWork_of_digit_end {r : Regs c} (h : StepInvariant r) (hs : r.dcSt = .emit)
    (hd : (unitOfWork r).byteDone = true) :
    ∃ rs b, unitOfWork r =
      if exhausted (consumeDigit (sequencerStep rs b r)) then
        ⟨releaseSlot (setDcSt .idle (consumeDigit (sequencerStep rs b r))), true, true⟩
      else ⟨consumeDigit (sequencerStep rs b r), true, false⟩ := by
  obtain ⟨hb, hk⟩ := h.number_of_emit hs
  obtain ⟨-, hlast⟩ := (unitOfWork_byteDone_iff r).1 hd
  exact ⟨_, _, (unitOfWork_of_emit hb hk hs).trans (sequencerWork_of_number hlast hk)⟩

/-- That tick writes the accumulator and the zero counter as the digit's consumption does (R156). -/
theorem StepInvariant.unitOfWork_consumes {r : Regs c} (h : StepInvariant r) (hs : r.dcSt = .emit)
    (hd : (unitOfWork r).byteDone = true) :
    (unitOfWork r).regs.dcRev = (consumeDigit r).dcRev ∧ (unitOfWork r).regs.dcTz = (consumeDigit r).dcTz := by
  obtain ⟨rs, b, hwork⟩ := h.unitOfWork_of_digit_end hs hd
  rw [hwork]
  split <;> exact consumeDigit_sequencerStep rs b r

/-- Settles O40: with the byte the digit's consumption, without it the converter's frame. -/
theorem digitConsumedWithItsByte : Obligations.DigitConsumedWithItsByte := by
  intro s r o h hs hexec
  obtain ⟨rfl, rfl⟩ := execNop_next_iff.1 hexec
  refine ⟨fun hd hne => ?_, fun hd h0 => ?_, fun hd => unitOfWork_converter_frame (by simp_all)⟩
  · obtain ⟨hrev, htz⟩ := h.unitOfWork_consumes hs hd
    rw [hrev, htz]
    exact consumeDigit_of_rev hne
  · obtain ⟨hrev, htz⟩ := h.unitOfWork_consumes hs hd
    have hz : s.regs.dcTz ≠ 0#_ := (h.emit hs).2.resolve_left (not_not.2 h0)
    have hpos := ne_zero_iff_toNat.1 hz
    obtain ⟨hrev', htz'⟩ := consumeDigit_of_tz h0 hz
    rw [hrev, htz, htz']
    exact ⟨hrev', by omega⟩

/-- Settles O41, by whether the consumption exhausts the converter. -/
theorem exhaustedConverterCompletes : Obligations.ExhaustedConverterCompletes := by
  intro s r o h hs hexec hd
  obtain ⟨rfl, rfl⟩ := execNop_next_iff.1 hexec
  obtain ⟨hb, hk⟩ := h.number_of_emit hs
  obtain ⟨hp, hq⟩ := unitOfWork_counters_of_byteDone hd
  obtain ⟨rs, b, hwork⟩ := h.unitOfWork_of_digit_end hs hd
  rw [hwork] at hp hq ⊢
  cases hx : exhausted (consumeDigit (sequencerStep rs b s.regs)) with
  | true => simpa using exhausted_iff.1 hx
  | false =>
    have hmore := mt exhausted_iff.2 (Bool.eq_false_iff.1 hx)
    rw [hx] at hp hq
    exact ⟨iff_of_false nofun hmore, nofun, fun _ => ⟨by simpa using hs, by simpa using hb, by simpa using hk, hp, hq⟩⟩

end Sys2Proof.Machine
end

section
/-! What an acceptance leaves in the converter (R150, R151), and the settlement of O43. -/

namespace Sys2Proof.Machine

variable {c : Config}

/-- A load writes every register of the converter, from the value alone (R150). -/
theorem loadNumber_converter_congr (v : BitVec c.numW) (r r' : Regs c) :
    (loadNumber v r).dcSt = (loadNumber v r').dcSt ∧ (loadNumber v r).dcV = (loadNumber v r').dcV ∧
    (loadNumber v r).dcRev = (loadNumber v r').dcRev ∧ (loadNumber v r).dcTz = (loadNumber v r').dcTz := by
  unfold loadNumber
  split <;> exact ⟨rfl, rfl, rfl, rfl⟩

/-- Settles O43: an accepted WRITE_NUMBER is a load over whatever was there, and a SEND loads nothing. -/
theorem numbersDoNotInteract : Obligations.NumbersDoNotInteract := by
  refine ⟨fun c v q q' u u' ins ins' r o r' o' hexec hexec' hacc hacc' => ?_,
    fun s b r o r' o' n u hcmd hdata hnop => ?_⟩
  · obtain ⟨hr, rfl⟩ := exec_next_iff (s := ⟨c, q, u, ins⟩).1 hexec
    obtain ⟨hr', rfl⟩ := exec_next_iff (s := ⟨c, q', u', ins'⟩).1 hexec'
    obtain ⟨-, hfree⟩ := (verdict_eq_accepted_iff (i := .writeNumber v)).1 hacc
    obtain ⟨-, hfree'⟩ := (verdict_eq_accepted_iff (i := .writeNumber v)).1 hacc'
    rw [hr, hr', if_pos hfree, if_pos hfree']
    exact loadNumber_converter_congr _ _ _
  · obtain ⟨hr : r = tickRegs (.sendCmd b) s.regs, -⟩ := exec_next_iff.1 hcmd
    obtain ⟨hr' : r' = tickRegs (.sendData b) s.regs, -⟩ := exec_next_iff.1 hdata
    obtain ⟨hn, -⟩ := execNop_next_iff.1 hnop
    rw [hr, hr', hn]
    exact ⟨tickRegs_converter (by simp), tickRegs_converter (by simp)⟩

end Sys2Proof.Machine
end

section
/-! A number from its acceptance to its completion: the bytes it sends and the latches they make are those of the digits
left, tick by tick (R154 to R160, R184). The settlement of O46. -/

namespace Sys2Proof.Machine

variable {c : Config}

/-! ### The bytes sent -/

/-- A byte that ends is the first of the digits left; the others' bytes come after it (R155, R156). -/
theorem byteEnding_append_digitBytes {r : Regs c} (h : ConverterInvariant r) (hk : r.kind = .number) :
    byteEnding r ++ (digitsLeft (unitOfWork r).regs).map digitByte = (digitsLeft r).map digitByte := by
  cases hd : (unitOfWork r).byteDone with
  | false => simp [byteEnding, hd, digitsLeft_unitOfWork_of_not_byteDone h hd]
  | true =>
    obtain ⟨hs, hcons⟩ := digitsLeft_unitOfWork_of_byteDone h hk hd
    simp [byteEnding, hd, hcons, txByte_of_emit hk hs]

/-! ### The latches made -/

/-- A number is running, and where a digit's byte is presented the lines carry it. -/
structure NumberOverLines (r : Regs c) : Prop where
  inv : StepInvariant r
  number : r.kind = .number
  lines : ∀ b, txByte r = some b → SendsOverLines true b r

/-- The latches a running number still makes: those from the present pass on for its first digit left, and a whole byte's
for every other (R184). -/
def numberLatches (r : Regs c) : List Latch :=
  match digitsLeft r with
  | [] => []
  | d :: ds =>
    byteLatches c.ifWidth true (digitByte d) r.pass ++
      ds.flatMap fun e => byteLatches c.ifWidth true (digitByte e) .first

theorem numberLatches_of_cons {r : Regs c} {d : Nat} {ds : List Nat} (h : digitsLeft r = d :: ds) :
    numberLatches r = byteLatches c.ifWidth true (digitByte d) r.pass ++
      ds.flatMap fun e => byteLatches c.ifWidth true (digitByte e) .first := by
  rw [numberLatches, h]

/-- Between two bytes every digit left has its whole byte's latches to come. -/
theorem numberLatches_of_first {r : Regs c} (hq : r.pass = .first) :
    numberLatches r = (digitsLeft r).flatMap fun e => byteLatches c.ifWidth true (digitByte e) .first := by
  cases hd : digitsLeft r with
  | nil => simp [numberLatches, hd]
  | cons d ds => rw [numberLatches_of_cons hd, hq, List.flatMap_cons]

/-- At the start of a byte, or before it, the lines have nothing to carry yet. -/
theorem NumberOverLines.of_start {r : Regs c} (h : StepInvariant r) (hk : r.kind = .number) (hp : r.phase = .setRs) :
    NumberOverLines r := by
  refine ⟨h, hk, fun b hb => .of_start h ?_ (by simp [hk, rsOf]) hb hp⟩
  refine (h.seqEn_or_reversal (h.busy_of_number hk)).resolve_right fun hrev => ?_
  simp [txByte, hrev] at hb

/-- A tick makes the first of the latches left, or none, and the running number's work leaves the others (R184). -/
theorem NumberOverLines.strobeLatch_append {r : Regs c} (h : NumberOverLines r) :
    (strobeLatch r).toList ++ numberLatches (unitOfWork r).regs = numberLatches r := by
  obtain ⟨-, -, hc⟩ := stepInvariant_iff.1 h.inv
  rcases h.inv.number h.number with hs | hs
  · obtain ⟨-, hp, hq⟩ := h.inv.rev hs
    rw [unitOfWork_of_rev (h.inv.busy_of_number h.number) h.number hs, numberLatches_of_first hq,
      numberLatches_of_first (r := reversalStep r) hq, digitsLeft_reversalStep hc hs, strobeLatch_of_ne (by simp [hp])]
    rfl
  · have hover := h.lines _ (txByte_of_emit h.number hs)
    cases hl : (advance c r.phase r.pass).last with
    | false =>
      have hcons := digitsLeft_of_emit hs (hc.emit hs).2
      rw [hover.unitOfWork_eq hl, numberLatches_of_cons hcons,
        numberLatches_of_cons ((digitsLeft_sequencerStep _ _ r).trans hcons), ← List.append_assoc,
        hover.byteLatches_inner_tick hl]
    | true =>
      have hd := (unitOfWork_byteDone_iff r).2 ⟨hover.enabled, hl⟩
      obtain ⟨-, hcons⟩ := digitsLeft_unitOfWork_of_byteDone hc h.number hd
      rw [numberLatches_of_cons hcons, numberLatches_of_first (unitOfWork_counters_of_byteDone hd).2,
        hover.byteLatches_final_tick hl]

/-- Until the number completes, its work leaves the lines carrying the byte presented next, if there is one (R102). -/
theorem NumberOverLines.work {r : Regs c} (h : NumberOverLines r) (hd : (unitOfWork r).done = false) :
    NumberOverLines (unitOfWork r).regs := by
  have hinv := unitOfWork_stepInvariant h.inv
  have hk := (unitOfWork_slot_frame hd).2.trans h.number
  rcases h.inv.number h.number with hs | hs
  · have hwork := unitOfWork_of_rev (h.inv.busy_of_number h.number) h.number hs
    exact .of_start hinv hk (by rw [hwork]; exact (h.inv.rev hs).2.1)
  · have hover := h.lines _ (txByte_of_emit h.number hs)
    cases hl : (advance c r.phase r.pass).last with
    | false =>
      rw [hover.unitOfWork_eq hl] at hinv hk ⊢
      refine ⟨hinv, hk, fun b hb => ?_⟩
      obtain rfl := Option.some.inj ((hover.phase_step hl).byte.symm.trans hb)
      exact hover.phase_step hl
    | true =>
      have hbyte := (unitOfWork_byteDone_iff r).2 ⟨hover.enabled, hl⟩
      exact .of_start hinv hk (unitOfWork_counters_of_byteDone hbyte).1

/-! ### The ticks of a number -/

/-- In its last tick a running number's work leaves no digit (R157). -/
theorem digitsLeft_of_last_tick {r : Regs c} (h : StepInvariant r) (hb : r.busy = true) (hl : ticksLeft r = 1) :
    digitsLeft (unitOfWork r).regs = [] := by
  have hd := (unitOfWork_done_iff h hb).2 hl
  obtain ⟨-, -, hst⟩ := (unitOfWork_stepInvariant h).idle_counters (unitOfWork_done hd).1
  rw [digitsLeft, hst]

/-- If the ticks after this one send and latch what the running number's work leaves, they and this one do so for what the
number had left: this tick's byte and latch are the first, if it makes any. -/
theorem NumberOverLines.tick {k : Nat} {s : State} (h : NumberOverLines s.regs) (hreset : (nextInput s).rst = false)
    (hsent : sentBytes k (afterTick (decode (nextInput s).word) (dropInput s)) =
      (digitsLeft (unitOfWork s.regs).regs).map digitByte)
    (hlatched : latches k (afterTick (decode (nextInput s).word) (dropInput s)) =
      numberLatches (unitOfWork s.regs).regs) :
    sentBytes (k + 1) s = (digitsLeft s.regs).map digitByte ∧ latches (k + 1) s = numberLatches s.regs := by
  obtain ⟨-, -, hc⟩ := stepInvariant_iff.1 h.inv
  have hstep := step_eq_afterTick hreset
  rw [sentBytes_succ hstep, latches_succ hstep, latchOf_afterTick h.inv hreset, hsent, hlatched, h.strobeLatch_append]
  exact ⟨byteEnding_append_digitBytes hc h.number, rfl⟩

/-- Over the ticks a running number has left it sends the bytes of the digits left, and the display latches them, whatever
is presented (R159, R184). -/
theorem NumberOverLines.run (k : Nat) {s : State} (h : NumberOverLines s.regs) (hleft : ticksLeft s.regs = k + 1)
    (hreset : NoReset (k + 1) s) :
    sentBytes (k + 1) s = (digitsLeft s.regs).map digitByte ∧ latches (k + 1) s = numberLatches s.regs := by
  have hb := h.inv.busy_of_number h.number
  induction k generalizing s with
  | zero =>
    have hnone := digitsLeft_of_last_tick h.inv hb hleft
    exact h.tick hreset.head (by rw [hnone]; rfl) (by rw [numberLatches, hnone]; rfl)
  | succ k ih =>
    have hd : (unitOfWork s.regs).done = false := by
      rw [Bool.eq_false_iff, ne_eq, unitOfWork_done_iff h.inv hb]
      omega
    have hnext := h.work hd
    have hbusy := hnext.inv.busy_of_number hnext.number
    have hticks := Nat.succ.inj ((ticksLeft_unitOfWork h.inv hb).trans hleft)
    have htick : (afterTick (decode (nextInput s).word) (dropInput s)).regs = (unitOfWork s.regs).regs :=
      tickRegs_of_running hb hd _
    rw [← htick] at hnext hbusy hticks
    obtain ⟨hsent, hlatched⟩ := ih hnext hticks hreset.tail hbusy
    exact h.tick hreset.head (htick ▸ hsent) (htick ▸ hlatched)

/-! ### The bytes received -/

/-- A whole byte's latches make the byte before the latches after them make theirs (R184). -/
theorem receivedBytes_byteLatches_append (w : IfWidth) (rs : Bool) (b : Byte) (ls : List Latch) :
    receivedBytes w (byteLatches w rs b .first ++ ls) = ⟨rs, b⟩ :: receivedBytes w ls := by
  have hone := receivedBytes_byteLatches w rs b
  cases w with
  | eight => cases ls <;> simp_all [byteLatches, receivedBytes]
  | four => simp_all [byteLatches, receivedBytes]

/-- The display receives the bytes of the digits left of a number that starts (R159, R184). -/
theorem receivedBytes_digitLatches (w : IfWidth) (ds : List Nat) :
    receivedBytes w (ds.flatMap fun e => byteLatches w true (digitByte e) .first) =
      ds.map fun d => ⟨true, digitByte d⟩ := by
  induction ds with
  | nil => cases w <;> rfl
  | cons d ds ih => rw [List.flatMap_cons, receivedBytes_byteLatches_append, ih, List.map_cons]

/-- A running number that starts its first byte, or its reversal, completes in the ticks it has left, with the bytes of the
digits left sent and received (R159, R160, R184). -/
theorem NumberOverLines.run_to_completion {s : State} {n : Nat} (h : NumberOverLines s.regs)
    (hq : s.regs.pass = .first) (hleft : ticksLeft s.regs = n) (hreset : NoReset n s) :
    (∃ t, Host.Core.run Sys2Proof.core n s = .next t ∧ t.out.done = true) ∧
    sentBytes n s = (digitsLeft s.regs).map digitByte ∧
    receivedBytes s.cfg.ifWidth (latches n s) = (digitsLeft s.regs).map fun d => ⟨true, digitByte d⟩ := by
  have hb := h.inv.busy_of_number h.number
  have hpos := mt (ticksLeft_eq_zero_iff h.inv).1 (by simp [hb])
  obtain ⟨k, rfl⟩ : ∃ k, n = k + 1 := Nat.exists_eq_add_of_le' (hleft ▸ Nat.pos_of_ne_zero hpos)
  obtain ⟨t, hrun⟩ := exists_run (k + 1) h.inv
  obtain ⟨hsent, hlatched⟩ := h.run k hleft hreset
  refine ⟨⟨t, hrun, (run_done_iff_last_tick k h.inv hb hreset hleft.ge hrun).2 hleft.symm⟩, hsent, ?_⟩
  rw [hlatched, numberLatches_of_first hq, receivedBytes_digitLatches]

/-! ### The WRITE_NUMBER presented to an idle block -/

/-- A presented value fits the operand field (R71). -/
theorem lt_of_decode_writeNumber {n v : Nat} {w : ReqWord n} (h : decode w = .writeNumber v) : v < 2 ^ n := by
  have hwf := decode_wf w
  rw [h] at hwf
  exact of_decide_eq_true hwf

/-- A number's ticks as the measure counts them (R160). -/
theorem numberTicks_eq {v : Nat} (hv : v < 2 ^ c.numW) :
    numberTicks c v = (Nat.digits 10 v).length + (numeral v).length * c.byteTicks := by
  rw [digits_length_add_numeral_length_mul, numberTicks]
  by_cases h0 : v = 0
  · rw [if_pos h0, if_pos h0]
  · rw [if_neg h0, if_neg h0, numDigitsFuel_eq_length (Nat.pos_of_ne_zero h0) (hv.trans_le (two_pow_le_ten_pow _))]

/-- Accepted by an idle block, a number is running with its numeral to send and all its ticks to go (R150, R160). -/
theorem NumberOverLines.of_accepted {r : Regs c} (h : StepInvariant r) (hb : r.busy = false) {v : Nat}
    (hv : v < 2 ^ c.numW) :
    NumberOverLines (tickRegs (.writeNumber v) r) ∧ digitsLeft (tickRegs (.writeNumber v) r) = numeral v ∧
      (tickRegs (.writeNumber v) r).pass = .first ∧ ticksLeft (tickRegs (.writeNumber v) r) = numberTicks c v := by
  have hfree : slotFree r.busy (unitOfWork r).done = true := slotFree_iff.2 (.inl hb)
  have hinv := acceptWrites_stepInvariant h hb (.writeNumber v)
  rw [tickRegs_of_accepts (i := .writeNumber v) ⟨nofun, hfree⟩, unitOfWork_of_idle hb, numberTicks_eq hv]
  refine ⟨.of_start hinv ?_ ?_, ?_, ?_, ticksLeft_acceptWrites_writeNumber hv r⟩
  · simp [acceptWrites]
  · simp [acceptWrites]
  · rw [acceptWrites, digitsLeft_loadNumber, BitVec.toNat_ofNat, Nat.mod_eq_of_lt hv]
  · simp [acceptWrites]

/-- Settles O46: the accepting tick sends and latches nothing, and the number's ticks after it send its numeral. -/
theorem numberReachesTheDisplay : Obligations.NumberReachesTheDisplay := by
  intro s v h hb hword hreset
  have hv := lt_of_decode_writeNumber hword
  rw [Nat.add_comm] at hreset ⊢
  have hstep := step_eq_afterTick hreset.head
  rw [hword] at hstep
  have hlatch := latchOf_afterTick h hreset.head (.writeNumber v)
  rw [strobeLatch_of_ne (by simp [h.idle_counters hb])] at hlatch
  have hbyte : (afterTick (.writeNumber v) (dropInput s)).out.byteDone = false :=
    congrArg Work.byteDone (unitOfWork_of_idle hb)
  obtain ⟨hnum, hdigits, hq, hticks⟩ := NumberOverLines.of_accepted h hb hv
  obtain ⟨hdone, hsent, hreceived⟩ :=
    NumberOverLines.run_to_completion (s := afterTick (.writeNumber v) (dropInput s)) hnum hq hticks hreset.tail
  rw [run_succ hstep, sentBytes_succ hstep, latches_succ hstep, hlatch, hbyte, ← hdigits]
  simp only [← digitByte_eq_ofNat]
  exact ⟨hdone, hsent, hreceived⟩

end Sys2Proof.Machine
end

section
/-! The tick as a total function of the state and the request presented (R181, R182): what it runs, that it ends in a next
state, and what of its outcome the request does not reach (R180). The settlements of O9, O10 and O13. -/

namespace Sys2Proof.Machine

/-- A host that presents nothing presents a NOP (R186). -/
theorem decode_idleInput (n : Nat) : decode (idleInput n).word = .nop := by simp [idleInput, decode, opField]

/-- Settles O9: the presented word is the next input's, and past the last one the input is the idle one. -/
theorem stepRunsThePresentedRequest : Obligations.StepRunsThePresentedRequest := by
  refine ⟨fun s w rest hin => ⟨decode_wf w, ?_⟩, fun s hin => ?_⟩
  · have hnext : nextInput s = ⟨false, w⟩ := by simp [nextInput, hin]
    have hdrop : dropInput s = { s with inputs := rest } := by simp [dropInput, hin]
    rw [step_of_request (by rw [hnext]), hnext, hdrop]
  · have hnext : nextInput s = idleInput s.cfg.numW := by simp [nextInput, hin]
    have hdrop : dropInput s = s := by rw [dropInput, hin, List.tail_nil, ← hin]
    rw [step_of_request (by rw [hnext]; rfl), hnext, decode_idleInput, hdrop]

/-- Every tick, a reset or not, ends in a next state with the same configuration and one input fewer (R182). -/
theorem step_total (s : State) : ∃ r o, step s = .next ⟨s.cfg, r, o, s.inputs.tail⟩ := by
  cases hrst : (nextInput s).rst with
  | true => exact ⟨_, _, step_of_rst hrst⟩
  | false => exact ⟨_, _, step_eq hrst⟩

/-- Settles O10, for the request by its written-out tick. -/
theorem everyTickEndsInANextState : Obligations.EveryTickEndsInANextState :=
  ⟨fun i s => ⟨_, _, exec_eq i s⟩, step_total⟩

/-- Settles O13: both ticks' completions and lines are those of the running request's work. -/
theorem completionIgnoresTheRequest : Obligations.CompletionIgnoresTheRequest := by
  intro i j s r o r' o' hi hj
  obtain ⟨hr : r = tickRegs i s.regs, rfl⟩ := exec_next_iff.1 hi
  obtain ⟨hr' : r' = tickRegs j s.regs, rfl⟩ := exec_next_iff.1 hj
  obtain ⟨hrs, hrw, he, hdb⟩ := tickRegs_lines i s.regs
  obtain ⟨hrs', hrw', he', hdb'⟩ := tickRegs_lines j s.regs
  rw [hr, hr']
  exact ⟨rfl, rfl, hrs.trans hrs'.symm, hrw.trans hrw'.symm, he.trans he'.symm, hdb.trans hdb'.symm⟩

end Sys2Proof.Machine
end

section
/-! NOPs bring the block to rest (R185): no running request has more ticks left than the bound, a NOP takes one of them
and starts nothing, and `settle` is the run that stops at the first quiescent state. The settlement of O47. -/

namespace Sys2Proof.Machine

variable {c : Config}

/-! ### The bound -/

/-- No byte takes more than `P` ticks (R109). -/
theorem byteTicksLeft_le (r : Regs c) : byteTicksLeft r ≤ c.byteTicks := by
  unfold byteTicksLeft Config.byteTicks
  cases c.ifWidth <;> cases r.pass <;> cases c.pass2Entry <;> simp [Pass2Entry.num] <;> omega

/-- The value's digits still to be reversed are among those still to be sent (R154). -/
theorem digits_length_le_digitsLeft {r : Regs c} (hs : r.dcSt = .rev) :
    (Nat.digits 10 r.dcV.toNat).length ≤ (digitsLeft r).length := by
  simp only [digitsLeft, hs, List.length_append, List.length_reverse]
  omega

/-- A running request has at most a byte's ticks left, or those of `D_MAX` digits with a reversal tick each (R185). -/
theorem ticksLeft_le_settleBound {r : Regs c} (h : StepInvariant r) : ticksLeft r ≤ settleBound c := by
  have hbyte := byteTicksLeft_le r
  have hsend : (digitsLeft r).length * c.byteTicks ≤ c.dMax * c.byteTicks := Nat.mul_le_mul_right _ h.digits
  have hdigits := h.digits
  rw [settleBound, Nat.mul_add, Nat.mul_one, le_max_iff]
  unfold ticksLeft
  cases r.kind with
  | none => exact .inl (Nat.zero_le _)
  | cmd => exact .inl hbyte
  | data => exact .inl hbyte
  | number =>
    cases hs : r.dcSt with
    | idle => exact .inl (Nat.zero_le _)
    | rev =>
      have := digits_length_le_digitsLeft hs
      simp only
      omega
    | emit =>
      have hpos : 0 < (digitsLeft r).length := by simp [digitsLeft_of_emit hs (h.emit hs).2]
      have hfirst : (digitsLeft r).length * c.byteTicks =
          ((digitsLeft r).length - 1) * c.byteTicks + c.byteTicks := by
        rw [← Nat.succ_mul, Nat.succ_eq_add_one, Nat.sub_add_cancel hpos]
      simp only
      omega

/-! ### The NOP tick -/

/-- A NOP leaves the registers to the running request (R133). -/
@[simp] theorem tickRegs_nop (r : Regs c) : tickRegs .nop r = (unitOfWork r).regs :=
  tickRegs_of_not_accepts fun ha => ha.1 rfl

/-- A host that presents only NOPs presents one in this tick, whether or not its words have ended. -/
theorem OnlyNops.head {s : State} (h : OnlyNops s) :
    (nextInput s).rst = false ∧ decode (nextInput s).word = .nop := by
  unfold nextInput
  cases hin : s.inputs with
  | nil => exact ⟨rfl, decode_idleInput _⟩
  | cons x xs => exact h x (by simp [hin])

/-- And in the ticks after this one. -/
theorem OnlyNops.tail {s : State} (h : OnlyNops s) : OnlyNops (dropInput s) :=
  fun x hx => h x (List.mem_of_mem_tail hx)

theorem OnlyNops.step_eq {s : State} (h : OnlyNops s) : step s = .next (afterTick .nop (dropInput s)) := by
  obtain ⟨hrst, hnop⟩ := h.head
  rw [step_eq_afterTick hrst, hnop]

/-- An idle block's NOP tick leaves its registers, and drives NONE, 0, 0 (R133, R185). -/
theorem afterTick_nop_of_idle {s : State} (hb : s.regs.busy = false) :
    afterTick .nop s = ⟨s.cfg, s.regs, ⟨.none, false, false⟩, s.inputs⟩ := by
  simp [afterTick, unitOfWork_of_idle hb]

/-! ### `settle` as a run -/

/-- `settle` ends where the ticks it applies end (R186). -/
theorem settle_eq_run (k : Nat) (s : State) : settle k s = Host.Core.run Sys2Proof.core (settleTicks k s) s := by
  induction k generalizing s with
  | zero => rfl
  | succ k ih =>
    cases hb : s.regs.busy with
    | false => rw [settleTicks_of_idle hb]; exact settle_of_idle hb _
    | true =>
      obtain ⟨r, o, hstep⟩ := step_total s
      rw [settle_succ hb hstep, settleTicks_succ hb hstep, run_succ hstep, ih]

/-- With the ticks of the running request allowed for, NOPs settle the block in a quiescent state (R185). -/
theorem OnlyNops.settle_quiescent (k : Nat) {s : State} (h : StepInvariant s.regs) (hnops : OnlyNops s)
    (hk : ticksLeft s.regs ≤ k) : ∃ t, settle k s = .next t ∧ Quiescent t := by
  induction k generalizing s with
  | zero => exact ⟨s, rfl, (ticksLeft_eq_zero_iff h).1 (Nat.le_zero.1 hk)⟩
  | succ k ih =>
    cases hb : s.regs.busy with
    | false => exact ⟨s, settle_of_idle hb _, hb⟩
    | true =>
      have hregs : (afterTick .nop (dropInput s)).regs = (unitOfWork s.regs).regs := tickRegs_nop s.regs
      have hdrop := ticksLeft_unitOfWork h hb
      have hle : ticksLeft (unitOfWork s.regs).regs ≤ k := by omega
      rw [settle_succ hb hnops.step_eq]
      exact ih (hregs ▸ unitOfWork_stepInvariant h) hnops.tail (hregs ▸ hle)

/-- Settles O47: an idle NOP tick writes nothing, and `settle`'s ticks within the bound are the run to rest. -/
theorem nopsBringTheBlockToRest : Obligations.NopsBringTheBlockToRest := by
  refine ⟨fun s hnops hquiet => ?_, fun s h hnops => ?_⟩
  · rw [hnops.step_eq, afterTick_nop_of_idle (s := dropInput s) hquiet]
    rfl
  · obtain ⟨t, hsettle, hquiet⟩ := hnops.settle_quiescent _ h (ticksLeft_le_settleBound h)
    exact ⟨settleTicks (settleBound s.cfg) s, t, settleTicks_le _ s, (settle_eq_run _ s).symm.trans hsettle, hquiet⟩

end Sys2Proof.Machine
end

section
/-! The run of a program (R186): its requests' ticks, then those that settle the block; and the trace of a run, entry by
entry. The settlements of O48 and O50. -/

namespace Sys2Proof.Machine

/-! ### Runs -/

/-- A run goes on from where its first ticks ended. -/
theorem run_add {m : Nat} {s t : State} (h : Host.Core.run Sys2Proof.core m s = .next t) (k : Nat) :
    Host.Core.run Sys2Proof.core (m + k) s = Host.Core.run Sys2Proof.core k t := by
  induction m generalizing s with
  | zero => cases h; rw [Nat.zero_add]
  | succ m ih =>
    obtain ⟨r, o, hstep⟩ := step_total s
    rw [run_succ hstep] at h
    rw [Nat.succ_add, run_succ hstep, ih h]

/-- Each tick of a run takes one input and keeps the configuration (R182). -/
theorem run_frame (k : Nat) {s t : State} (h : Host.Core.run Sys2Proof.core k s = .next t) :
    t.cfg = s.cfg ∧ t.inputs.length = s.inputs.length - k := by
  induction k generalizing s with
  | zero => cases h; exact ⟨rfl, rfl⟩
  | succ k ih =>
    obtain ⟨r, o, hstep⟩ := step_total s
    rw [run_succ hstep] at h
    obtain ⟨hcfg, hlen⟩ := ih h
    rw [List.length_tail] at hlen
    exact ⟨hcfg, by omega⟩

/-- The trace of a run has an entry for every tick (R186). -/
theorem trace_length (k : Nat) (s : State) : (trace k s).length = k := by
  induction k generalizing s with
  | zero => rfl
  | succ k ih =>
    obtain ⟨r, o, hstep⟩ := step_total s
    rw [trace_succ hstep, List.length_cons, ih]

/-- Each entry is the ports at the end of its tick (R186). -/
theorem trace_getElem? {n k : Nat} {s u : State} (hk : k < n)
    (hrun : Host.Core.run Sys2Proof.core (k + 1) s = .next u) : (trace n s)[k]? = some ⟨u.cfg, ports u⟩ := by
  induction n generalizing s k with
  | zero => exact absurd hk (Nat.not_lt_zero k)
  | succ n ih =>
    obtain ⟨r, o, hstep⟩ := step_total s
    rw [run_succ hstep] at hrun
    rw [trace_succ hstep]
    cases k with
    | zero => cases hrun; rfl
    | succ k => exact ih (Nat.lt_of_succ_lt_succ hk) hrun

/-- `settle` ticks no state that is at rest (R186). -/
theorem busy_before_settleTicks {n k : Nat} {s u : State} (hk : k < settleTicks n s)
    (hrun : Host.Core.run Sys2Proof.core k s = .next u) : u.regs.busy = true := by
  induction n generalizing s k with
  | zero => exact absurd hk (Nat.not_lt_zero k)
  | succ n ih =>
    cases hb : s.regs.busy with
    | false => rw [settleTicks_of_idle hb] at hk; exact absurd hk (Nat.not_lt_zero k)
    | true =>
      cases k with
      | zero => cases hrun; exact hb
      | succ k =>
        obtain ⟨r, o, hstep⟩ := step_total s
        rw [settleTicks_succ hb hstep] at hk
        exact ih (Nat.lt_of_succ_lt_succ hk) ((run_succ hstep k).symm.trans hrun)

/-! ### Programs -/

/-- A program's requests presented, the host's words have ended and the invariant holds (R186). -/
theorem exists_run_loadProgram {s : State} (h : StepInvariant s.regs) (is : List Instr) :
    ∃ u : State, Host.Core.run Sys2Proof.core is.length (loadProgram s is) = .next u ∧ u.cfg = s.cfg ∧ OnlyNops u ∧
      StepInvariant u.regs := by
  obtain ⟨u, hrun⟩ := exists_run (s := loadProgram s is) is.length h
  obtain ⟨hcfg, hlen⟩ := run_frame _ hrun
  have hnil : u.inputs = [] := List.eq_nil_of_length_eq_zero (by simpa [loadProgram] using hlen)
  exact ⟨u, hrun, hcfg, by simp [OnlyNops, hnil], run_stepInvariant (s := loadProgram s is) _ h hrun⟩

theorem runProgram_eq {s u : State} {is : List Instr}
    (h : Host.Core.run Sys2Proof.core is.length (loadProgram s is) = .next u) :
    runProgram s is = settle (settleBound s.cfg) u := by
  simp only [runProgram, h]

theorem runTicks_eq {s u : State} {is : List Instr}
    (h : Host.Core.run Sys2Proof.core is.length (loadProgram s is) = .next u) :
    runTicks s is = is.length + settleTicks (settleBound s.cfg) u := by
  simp only [runTicks, h]

/-- A program's run is its ticks, its requests' and the settling ones (R186). -/
theorem runProgram_eq_run {s : State} (h : StepInvariant s.regs) (is : List Instr) :
    runProgram s is = Host.Core.run Sys2Proof.core (runTicks s is) (loadProgram s is) := by
  obtain ⟨u, hrun, -⟩ := exists_run_loadProgram h is
  rw [runProgram_eq hrun, runTicks_eq hrun, run_add hrun, settle_eq_run]

/-- Settles O48: past the last request the host presents NOPs, which bring the block to rest within the bound. -/
theorem everyProgramRunComesToRest : Obligations.EveryProgramRunComesToRest := by
  intro s is h
  obtain ⟨u, hrun, hcfg, hnops, hinv⟩ := exists_run_loadProgram h is
  rw [runProgram_eq hrun]
  exact hnops.settle_quiescent _ hinv (hcfg ▸ ticksLeft_le_settleBound hinv)

/-- Settles O50: the run is its requests' ticks and then `settle`'s, none of which starts at rest. -/
theorem programTraceIsEveryTickOfTheRun : Obligations.ProgramTraceIsEveryTickOfTheRun := by
  intro s is h
  obtain ⟨t, hprogram, hquiet⟩ := everyProgramRunComesToRest s is h
  obtain ⟨u, hrun, -⟩ := exists_run_loadProgram h is
  have hticks := runTicks_eq hrun
  have hbound := settleTicks_le (settleBound s.cfg) u
  refine ⟨⟨t, hprogram, hquiet, (runProgram_eq_run h is).symm.trans hprogram⟩, by omega, by omega, ?_,
    trace_length _ _, fun k v hk hv => trace_getElem? hk hv⟩
  intro k v hlow hhigh hv hrest
  obtain ⟨j, rfl⟩ := Nat.exists_eq_add_of_le hlow
  rw [run_add hrun] at hv
  have hbusy := busy_before_settleTicks (n := settleBound s.cfg) (by omega) hv
  exact absurd hrest (by simp [Quiescent, hbusy])

end Sys2Proof.Machine
end

section
/-! The reset state and the tick of `rst` (R206, R220, R221): the settlements of O1 and O3. -/

namespace Sys2Proof.Machine

/-- Settles O1: the registers and outputs are `State.resetAt`'s own, and R40 is part of the invariant every tick keeps,
which holds at reset. -/
theorem resetLeavesEveryRegister : Obligations.ResetLeavesEveryRegister := by
  intro c
  have hinv : RegInvariants (State.resetAt c).regs := (reset_stepInvariant c).toRegInvariants
  exact ⟨rfl, rfl, hinv, rfl⟩

/-- Settles O3: with `rst = 1` the tick is `resetTick`, which reads neither the registers nor the request word. -/
theorem resetTickClearsEverything : Obligations.ResetTickClearsEverything :=
  fun _ hrst => step_of_rst hrst

end Sys2Proof.Machine
end
